-- ==== Sys2Proof/Word.lean ====
section
/-! DEFINITION. The byte (00_scope.md R16): every value of the engine is an unsigned byte, a list of bytes or an unsigned count. -/

namespace Sys2Proof

/-- A byte: an unsigned 8-bit value, bit 0 least significant (R16). -/
abbrev Byte := BitVec 8

end Sys2Proof
end

