-- ==== Sys2Proof/Config.lean ====
section
/-! DEFINITION. The static parameter record Cfg of 00_scope.md (R5 to R15). It is fixed for a machine; no event writes it (10_state.md R20).
The constraints R252 puts on it are `Cfg.valid` in Machine/Flags.lean. -/

namespace Sys2Proof

/-- The parameters of the engine (00_scope.md R5 to R14). -/
structure Cfg where
  /-- P_RETRY_COUNT: retransmissions of a request after its first transmission (R5, OPEN). -/
  retryCount : Nat
  /-- P_RETRY_INTERVAL: period of the retransmission timer in TICKs (R6). -/
  retryInterval : Nat
  /-- P_HARD_TIMEOUT: length of the one-shot hard timeout in TICKs (R7). -/
  hardTimeout : Nat
  /-- P_TICK_PERIOD: "No rule of the engine depends on it" (R8, OPEN). R8 gives it no unit or resolution; that it is a whole number of
  microseconds, 0 admitted, is the model's choice (DESIGN CHOICE, log 26). -/
  tickPeriodMicros : Nat
  /-- P_KIND_REQ: wire value of the kind byte of a request (R9). -/
  kindReq : Byte
  /-- P_KIND_RES: wire value of the kind byte of a response (R9). -/
  kindRes : Byte
  /-- P_MULTI_SET: the "send data" function codes, as the list of its members (R10, OPEN; log 3). -/
  multiSet : List Byte
  /-- P_QUEUE_DEPTH: capacity of the request queue (R11, OPEN). -/
  queueDepth : Nat
  /-- P_RX_BUF_DEPTH: capacity in bytes of the accumulation buffer (R12). -/
  rxBufDepth : Nat
  /-- P_RESP_DEPTH: capacity in frames of one request's response list (R13, OPEN). -/
  respDepth : Nat
  /-- P_TAG_WIDTH: width in bits of a request tag (R14, OPEN). -/
  tagWidth : Nat
deriving DecidableEq, Repr

/-- The values the parameter summary of 00_scope.md gives (R6 to R9, R12). Where it gives none (the OPEN ones: R5, R10, R11,
R13, R14) the values of 95_test_vectors.md's Cfg_T stand, a DESIGN CHOICE (log 2); no statement rests on them. -/
def Cfg.default : Cfg :=
  { retryCount := 2, retryInterval := 1100, hardTimeout := 3000, tickPeriodMicros := 1000,
    kindReq := 0x01#8, kindRes := 0x02#8, multiSet := [0x13#8],
    queueDepth := 2, rxBufDepth := 257, respDepth := 3, tagWidth := 2 }

/-- What VALIDATE answers for an SOF operand of these fields with more than 252 payload bytes: a FREE VALUE, since R100 defines the
checksum, and R23 the frame, for at most 252 only (DESIGN CHOICE, log 24). -/
opaque Cfg.freeValidation (kind func : Byte) (payload : List Byte) (checksum : Byte) : Bool

end Sys2Proof
end

