-- ==== Sys2Proof/Syntax.lean ====
section
/-! DEFINITION. Frame values (10_state.md R23), the inputs at the engine's ports (60_exceptions.md R231), and Instr: one
constructor per row of spec/opcode_table.json, with its operands already pulled out of the bytes. -/

namespace Sys2Proof

/-- The SOF form of a frame value (R23): kind, function, payload and checksum exist only here. -/
structure Sof where
  kind : Byte
  func : Byte
  payload : List Byte
  checksum : Byte
deriving DecidableEq, Repr

/-- A frame value (R23). `unknown` and `malformed` are the spec's additions for bytes the source's decoder meets
but does not name (D14, D13). -/
inductive Frame where
  | sof (f : Sof)
  | ack
  | nak
  | can
  /-- a header byte not in 01, 06, 15, 18 -/
  | unknown (byte : Byte)
  /-- an SOF with length byte below 3; raw is the len + 2 bytes consumed -/
  | malformed (len : Byte) (raw : List Byte)
deriving DecidableEq, Repr

/-- Why ENCODE refuses a frame (40_codec.md R104). -/
inductive EncodeRefusal where
  | payloadTooLong
  | notEncodable
deriving DecidableEq, Repr

/-- The result of ENCODE (R103): bytes, or a refusal that produces none (R104). -/
inductive EncodeResult where
  | bytes (bs : List Byte)
  | refused (r : EncodeRefusal)
deriving DecidableEq, Repr

/-- The result of the codec unit for its four operations (30_encoding.md R84). -/
inductive CodecResult where
  | encoded (r : EncodeResult)
  /-- none is Incomplete; some is the frame and the number of bytes consumed -/
  | decoded (r : Option (Frame × Nat))
  | extracted (frames : List Frame) (remainder : List Byte)
  | validated (ok : Bool)
deriving DecidableEq, Repr

/-- The ports an input can come in at. -/
inductive Port where
  /-- transport receive port: each byte is one RX_BYTE (R79, R231). Several bytes in one input are the RX_BYTEs of R89's RX_CHUNK in order,
  but a held DISPATCH offered in front may run between two of them (DESIGN CHOICE, log 28) -/
  | transport
  /-- byte-serial host command port (R81) -/
  | host
  /-- the time-base strobe: TICK (R190) -/
  | timeBase
  /-- the reset input: RESET (R250) -/
  | resetInput
  /-- the 3-bit event selector with its operands (R79; log 7) -/
  | event
  /-- the codec unit's select with its operands (R84; log 8) -/
  | codec
  /-- a whole frame as the codec hands it to the dispatcher (R131; the model's own port, log 9) -/
  | wire
  /-- a valid SOF frame from its kind byte on (R166, R75; the model's own port, log 10) -/
  | kind
deriving DecidableEq, Repr

/-- Bytes offered at a port and not yet taken. -/
structure Input where
  port : Port
  bytes : List Byte
deriving DecidableEq, Repr

/-- The instructions: one constructor per row of spec/opcode_table.json. -/
inductive Instr where
  /-- SOF: an SOF frame with length byte 3..255 is processed (R131 to R133) -/
  | sof (f : Sof)
  /-- SOF_MALFORMED_LEN0_1: none is length byte 0, some a is length byte 1 with its one further byte (R134) -/
  | sofMalformedLen01 (body : Option Byte)
  /-- SOF_MALFORMED_LEN2: length byte 2 with its two further bytes (R134) -/
  | sofMalformedLen2 (b0 b1 : Byte)
  /-- ACK (R135) -/
  | ack
  /-- NAK (R136) -/
  | nak
  /-- CAN (R136) -/
  | can
  /-- UNKNOWN_HEADER (R137) -/
  | unknownHeader (x : Byte)
  /-- KIND_REQ: a valid SOF frame of kind P_KIND_REQ (R166; log 10) -/
  | kindReq (func : Byte) (payload : List Byte)
  /-- KIND_RES: a valid SOF frame of kind P_KIND_RES (R166; log 10) -/
  | kindRes (func : Byte) (payload : List Byte)
  /-- KIND_OTHER: a valid SOF frame of a kind that is neither (R75; log 10) -/
  | kindOther (kind func : Byte) (payload : List Byte)
  /-- EV_NOP (R210) -/
  | evNop
  /-- EV_RX_BYTE (R130) -/
  | evRxByte (b : Byte)
  /-- EV_TICK (R190) -/
  | evTick
  /-- EV_DISPATCH (R161) -/
  | evDispatch (kind func : Byte) (payload : List Byte)
  /-- EV_CANCEL (R174) -/
  | evCancel (tag : Byte)
  /-- EV_SEQ_NEXT (R211) -/
  | evSeqNext
  /-- EV_RESET (R250) -/
  | evReset
  /-- EV_RESERVED (R83) -/
  | evReserved
  /-- HOST_NOP (R81, R210) -/
  | hostNop
  /-- HOST_DISPATCH (R81, R161) -/
  | hostDispatch (kind func : Byte) (payload : List Byte)
  /-- HOST_CANCEL (R81, R174) -/
  | hostCancel (tag : Byte)
  /-- HOST_SEQ_NEXT (R81, R211) -/
  | hostSeqNext
  /-- HOST_RESERVED: opcodes 0x04..0xFF (R83) -/
  | hostReserved (op : Byte)
  /-- CODEC_ENCODE (R103) -/
  | codecEncode (f : Frame)
  /-- CODEC_DECODE (R106) -/
  | codecDecode (buf : List Byte)
  /-- CODEC_EXTRACT (R107) -/
  | codecExtract (buf : List Byte)
  /-- CODEC_VALIDATE (R108) -/
  | codecValidate (f : Frame)
deriving DecidableEq, Repr

/-- The pseudo-events of 30_encoding.md R89: shorthand for sequences of events. -/
inductive Pseudo where
  | rxChunk (bs : List Byte)
  | rxFrame (f : Frame)
  | wait (n : Nat)
deriving DecidableEq, Repr

end Sys2Proof
end

