-- ==== Sys2Proof/WellFormed.lean ====
section
/-! DEFINITION. What the encodings admit of an instruction's operands: WellFormed. It depends on Cfg only through the kind codes. -/

namespace Sys2Proof

/-- PAYLOAD_MAX (00_scope.md R15). -/
def payloadMax : Nat := 252

/-- The four header bytes that name a frame form (30_encoding.md R71). -/
def namedHeaders : List Byte := [0x01#8, 0x06#8, 0x15#8, 0x18#8]

/-- Whether the encodings have words for the instruction: an SOF payload fits its length byte (R73, R23), a payload on a
command port fits its count byte (R80, R81), an unknown header is none of the four (R71), a reserved host opcode is
0x04..0xFF (R81), and the kind of KIND_OTHER is neither code (R75). -/
def Instr.wellFormed (c : Cfg) : Instr → Bool
  | .sof f => decide (f.payload.length ≤ payloadMax)
  | .sofMalformedLen01 _ => true
  | .sofMalformedLen2 _ _ => true
  | .ack => true
  | .nak => true
  | .can => true
  | .unknownHeader x => decide (x ∉ namedHeaders)
  | .kindReq _ p => decide (p.length ≤ payloadMax)
  | .kindRes _ p => decide (p.length ≤ payloadMax)
  | .kindOther k _ p => decide (k ≠ c.kindReq ∧ k ≠ c.kindRes ∧ p.length ≤ payloadMax)
  | .evNop => true
  | .evRxByte _ => true
  | .evTick => true
  | .evDispatch _ _ p => decide (p.length ≤ 255)
  | .evCancel _ => true
  | .evSeqNext => true
  | .evReset => true
  | .evReserved => true
  | .hostNop => true
  | .hostDispatch _ _ p => decide (p.length ≤ 255)
  | .hostCancel _ => true
  | .hostSeqNext => true
  | .hostReserved op => decide (4 ≤ op.toNat)
  | .codecEncode _ => true
  | .codecDecode _ => true
  | .codecExtract _ => true
  | .codecValidate _ => true

end Sys2Proof
end

