-- ==== Sys2Proof/Machine/Codec.lean ====
section
/-! DEFINITION. The frame codec (40_codec.md): CHECKSUM, ENCODE, DECODE, EXTRACT, VALIDATE. Pure and total. -/

namespace Sys2Proof.Machine

/-- XorFold (R16): the xor of every byte of a list, 0x00 for the empty one. -/
def xorFold (l : List Byte) : Byte := l.foldr (· ^^^ ·) 0x00#8

/-- CHECKSUM (R100): the header byte is not covered. R100 defines it for at most 252 payload bytes; that the length byte of a longer
list is reduced modulo 256 is the model's choice (DESIGN CHOICE, log 24), which no decoded frame and no codec result shows. -/
def checksum (kind func : Byte) (payload : List Byte) : Byte :=
  0xFF#8 ^^^ BitVec.ofNat 8 (payload.length + 3) ^^^ kind ^^^ func ^^^ xorFold payload

/-- The SOF frame with its checksum computed: `SOF(kind, func, payload)` of R86. -/
def sofOf (kind func : Byte) (payload : List Byte) : Sof :=
  { kind := kind, func := func, payload := payload, checksum := checksum kind func payload }

/-- The bytes of an SOF frame in field order (30_encoding.md R72), with the checksum byte given. -/
def sofBytes (f : Sof) : List Byte :=
  [0x01#8, BitVec.ofNat 8 (f.payload.length + 3), f.kind, f.func] ++ f.payload ++ [f.checksum]

/-- ENCODE (R103): the checksum field of the input is ignored; refusals are R104. An Unknown or Malformed operand that is no frame value
of R23 is answered by its form as R103 writes it (DESIGN CHOICE, log 27). -/
def encodeFrame : Frame → EncodeResult
  | .sof f =>
    if f.payload.length > payloadMax then .refused .payloadTooLong
    else .bytes (sofBytes (sofOf f.kind f.func f.payload))
  | .ack => .bytes [0x06#8]
  | .nak => .bytes [0x15#8]
  | .can => .bytes [0x18#8]
  | .unknown b => .bytes [b]
  | .malformed _ _ => .refused .notEncodable

/-- The bytes an encoding produces; a refusal produces none (R104). -/
def encodedBytes : EncodeResult → List Byte
  | .bytes bs => bs
  | .refused _ => []

/-- Ctrl of R106: the frame of a one-byte header. -/
def ctrlFrame (h : Byte) : Frame :=
  if h = 0x06#8 then .ack
  else if h = 0x15#8 then .nak
  else if h = 0x18#8 then .can
  else .unknown h

/-- DECODE (R106): none is Incomplete, some is the frame at the front and the number of bytes it takes. Indices past the end
do not occur behind the length checks, so the default byte of `getD` is never read. -/
def decodeFrame (buf : List Byte) : Option (Frame × Nat) :=
  if buf.length = 0 then none
  else if buf.getD 0 0#8 ≠ 0x01#8 then some (ctrlFrame (buf.getD 0 0#8), 1)
  else if buf.length < 2 then none
  else
    let len := (buf.getD 1 0#8).toNat
    if buf.length < len + 2 then none
    else if len < 3 then some (.malformed (buf.getD 1 0#8) (buf.take (len + 2)), len + 2)
    else some (.sof { kind := buf.getD 2 0#8, func := buf.getD 3 0#8,
                      payload := (buf.drop 4).take (len - 3), checksum := buf.getD (len + 1) 0#8 }, len + 2)

/-- The loop of EXTRACT (R107), on fuel: every successful decode consumes at least one byte, so the buffer's length suffices. -/
def extractLoop : Nat → List Byte → List Frame × List Byte
  | 0, buf => ([], buf)
  | fuel + 1, buf =>
    match decodeFrame buf with
    | none => ([], buf)
    | some (f, n) => (f :: (extractLoop fuel (buf.drop n)).1, (extractLoop fuel (buf.drop n)).2)

/-- EXTRACT (R107): the frames at the front of the buffer and the unconsumed remainder. -/
def extractFrames (buf : List Byte) : List Frame × List Byte := extractLoop buf.length buf

/-- VALIDATE (R108). An Unknown or Malformed operand that is no frame value of R23 is answered by its form as R108 writes it
(DESIGN CHOICE, log 27). -/
def validateChecksum : Frame → Bool
  | .sof f => decide (f.checksum = checksum f.kind f.func f.payload)
  | .malformed _ _ => false
  | .ack => true
  | .nak => true
  | .can => true
  | .unknown _ => true

end Sys2Proof.Machine
end

