-- ==== Sys2Proof/Machine/Operands.lean ====
section
/-! DEFINITION. Operand assembly (30_encoding.md R80, R81, R87, R88): how the bytes after a command's first byte make its
operands, and back. No operand is extended, scaled or shifted, and an absent one has no default. -/

namespace Sys2Proof.Machine

/-- DISPATCH's operand bytes: kind, func, n and n payload bytes (R81). -/
def dispatchBytes (kind func : Byte) (payload : List Byte) : List Byte :=
  [kind, func, BitVec.ofNat 8 payload.length] ++ payload

/-- Reads DISPATCH's operands (R81, R87): kind, func, payload and the bytes that follow; none while some byte is missing. -/
def splitDispatch : List Byte → Option (Byte × Byte × List Byte × List Byte)
  | kind :: func :: n :: rest =>
    if rest.length < n.toNat then none
    else some (kind, func, rest.take n.toNat, rest.drop n.toNat)
  | _ => none

/-- A frame operand of the codec unit as bytes: a form byte 0..5, then the fields, the one list field last
(DESIGN CHOICE, log 8). It admits operands that are no frame value of R23 (DESIGN CHOICE, log 24, log 27). -/
def frameOperandBytes : Frame → List Byte
  | .sof f => [0x00#8, f.kind, f.func, f.checksum] ++ f.payload
  | .ack => [0x01#8]
  | .nak => [0x02#8]
  | .can => [0x03#8]
  | .unknown b => [0x04#8, b]
  | .malformed len raw => [0x05#8, len] ++ raw

/-- What reading a frame operand gives. -/
inductive FrameOperand where
  | frame (f : Frame) (rest : List Byte)
  | incomplete
  | badForm
deriving DecidableEq, Repr

/-- Reads a frame operand of the codec unit (log 8). R23 admits Unknown only for a byte outside the four headers and Malformed only with
a length below 3 and length + 2 raw bytes; that the port takes any byte, length and raw bytes as operands, which are then answered by
their form alone, is the model's choice (DESIGN CHOICE, log 27). -/
def readFrameOperand : List Byte → FrameOperand
  | [] => .incomplete
  | form :: r =>
    if form = 0x00#8 then
      match r with
      | kind :: func :: c :: payload => .frame (.sof { kind := kind, func := func, payload := payload, checksum := c }) []
      | _ => .incomplete
    else if form = 0x01#8 then .frame .ack r
    else if form = 0x02#8 then .frame .nak r
    else if form = 0x03#8 then .frame .can r
    else if form = 0x04#8 then
      match r with
      | b :: rest => .frame (.unknown b) rest
      | [] => .incomplete
    else if form = 0x05#8 then
      match r with
      | len :: raw => .frame (.malformed len raw) []
      | [] => .incomplete
    else .badForm

end Sys2Proof.Machine
end

