-- ==== Sys2Proof/Decode.lean ====
section
/-! DEFINITION. The decoder, total on any bytes at any port and rejecting by name; after it the encoder, written from the same
tables (30_encoding.md R70 to R84); and the reading of a bare opcode-table word. -/

namespace Sys2Proof

open Sys2Proof.Machine

/-- Why bytes at a port are no instruction and can never become one. -/
inductive DecodeError where
  /-- a select of more bits than the port has: EV[2:0] of 8 or more, CODEC_OP[1:0] of 4 or more (R79, R84) -/
  | selectorRange
  /-- bytes at a strobe, which carries none (R190, R250) -/
  | strobeWithBytes
  /-- a form byte no frame operand of the codec unit has (log 8) -/
  | codecForm
  /-- more payload bytes than an SOF frame can carry (R15, R23) -/
  | payloadTooLong
deriving DecidableEq, Repr

/-- What decoding gives: an instruction and the bytes that follow it, or not yet all of its bytes, or a rejection by name. -/
inductive Decoded where
  | instr (i : Instr) (rest : List Byte)
  | incomplete
  | invalid (e : DecodeError)
deriving DecidableEq, Repr

/-- The instruction of a frame form (R131): the table's malformed rows before SOF, UNKNOWN_HEADER last. -/
def instrOfFrame : Frame → Instr
  | .sof f => .sof f
  | .ack => .ack
  | .nak => .nak
  | .can => .can
  | .unknown b => .unknownHeader b
  | .malformed len raw =>
    if len = 0x02#8 then .sofMalformedLen2 (raw.getD 2 0#8) (raw.getD 3 0#8)
    else .sofMalformedLen01 raw[2]?

/-- The rows of format event-sel3 (R79), operands in the order of R81 (log 7). -/
def decodeEvent : List Byte → Decoded
  | [] => .incomplete
  | ev :: r =>
    if ev = 0x00#8 then .instr .evNop r
    else if ev = 0x01#8 then
      match r with
      | b :: rest => .instr (.evRxByte b) rest
      | [] => .incomplete
    else if ev = 0x02#8 then .instr .evTick r
    else if ev = 0x03#8 then
      match splitDispatch r with
      | some (kind, func, payload, rest) => .instr (.evDispatch kind func payload) rest
      | none => .incomplete
    else if ev = 0x04#8 then
      match r with
      | tag :: rest => .instr (.evCancel tag) rest
      | [] => .incomplete
    else if ev = 0x05#8 then .instr .evSeqNext r
    else if ev = 0x06#8 then .instr .evReset r
    else if ev = 0x07#8 then .instr .evReserved r
    else .invalid .selectorRange

/-- The rows of format host-op8 (R81): a reserved opcode is one byte. -/
def decodeHost : List Byte → Decoded
  | [] => .incomplete
  | op :: r =>
    if op = 0x00#8 then .instr .hostNop r
    else if op = 0x01#8 then
      match splitDispatch r with
      | some (kind, func, payload, rest) => .instr (.hostDispatch kind func payload) rest
      | none => .incomplete
    else if op = 0x02#8 then
      match r with
      | tag :: rest => .instr (.hostCancel tag) rest
      | [] => .incomplete
    else if op = 0x03#8 then .instr .hostSeqNext r
    else .instr (.hostReserved op) r

/-- The rows of format codec-sel2 (R84); a byte-list operand is all that follows (log 8). -/
def decodeCodec : List Byte → Decoded
  | [] => .incomplete
  | op :: r =>
    if op = 0x00#8 then
      match readFrameOperand r with
      | .frame f rest => .instr (.codecEncode f) rest
      | .incomplete => .incomplete
      | .badForm => .invalid .codecForm
    else if op = 0x01#8 then .instr (.codecDecode r) []
    else if op = 0x02#8 then .instr (.codecExtract r) []
    else if op = 0x03#8 then
      match readFrameOperand r with
      | .frame f rest => .instr (.codecValidate f) rest
      | .incomplete => .incomplete
      | .badForm => .invalid .codecForm
    else .invalid .selectorRange

/-- The rows of format sof-kind8 (R75, R166): the kind byte, the function byte, and the payload to the end (log 10). -/
def decodeKind (c : Cfg) : List Byte → Decoded
  | kind :: func :: payload =>
    if payload.length > payloadMax then .invalid .payloadTooLong
    else if kind = c.kindReq then .instr (.kindReq func payload) []
    else if kind = c.kindRes then .instr (.kindRes func payload) []
    else .instr (.kindOther kind func payload) []
  | _ => .incomplete

/-- The rows of formats wire-sof16 and wire-ctrl8 (R70, R71, R78, R85): the frame at the front, by DECODE (R106). -/
def decodeWire (bs : List Byte) : Decoded :=
  match decodeFrame bs with
  | some (f, n) => .instr (instrOfFrame f) (bs.drop n)
  | none => .incomplete

/-- The instruction at the front of the bytes offered at a port. -/
def decode (c : Cfg) (p : Port) (bs : List Byte) : Decoded :=
  match p with
  | .transport =>
    match bs with
    | b :: rest => .instr (.evRxByte b) rest
    | [] => .incomplete
  | .host => decodeHost bs
  | .timeBase => if bs = [] then .instr .evTick [] else .invalid .strobeWithBytes
  | .resetInput => if bs = [] then .instr .evReset [] else .invalid .strobeWithBytes
  | .event => decodeEvent bs
  | .codec => decodeCodec bs
  | .wire => decodeWire bs
  | .kind => decodeKind c bs

/-- The port and the bytes of a well-formed instruction (R70 to R84). -/
def encode (c : Cfg) : Instr → Input
  | .sof f => { port := .wire, bytes := sofBytes f }
  | .sofMalformedLen01 none => { port := .wire, bytes := [0x01#8, 0x00#8] }
  | .sofMalformedLen01 (some a) => { port := .wire, bytes := [0x01#8, 0x01#8, a] }
  | .sofMalformedLen2 a b => { port := .wire, bytes := [0x01#8, 0x02#8, a, b] }
  | .ack => { port := .wire, bytes := [0x06#8] }
  | .nak => { port := .wire, bytes := [0x15#8] }
  | .can => { port := .wire, bytes := [0x18#8] }
  | .unknownHeader x => { port := .wire, bytes := [x] }
  | .kindReq func payload => { port := .kind, bytes := [c.kindReq, func] ++ payload }
  | .kindRes func payload => { port := .kind, bytes := [c.kindRes, func] ++ payload }
  | .kindOther kind func payload => { port := .kind, bytes := [kind, func] ++ payload }
  | .evNop => { port := .event, bytes := [0x00#8] }
  | .evRxByte b => { port := .event, bytes := [0x01#8, b] }
  | .evTick => { port := .event, bytes := [0x02#8] }
  | .evDispatch kind func payload => { port := .event, bytes := [0x03#8] ++ dispatchBytes kind func payload }
  | .evCancel tag => { port := .event, bytes := [0x04#8, tag] }
  | .evSeqNext => { port := .event, bytes := [0x05#8] }
  | .evReset => { port := .event, bytes := [0x06#8] }
  | .evReserved => { port := .event, bytes := [0x07#8] }
  | .hostNop => { port := .host, bytes := [0x00#8] }
  | .hostDispatch kind func payload => { port := .host, bytes := [0x01#8] ++ dispatchBytes kind func payload }
  | .hostCancel tag => { port := .host, bytes := [0x02#8, tag] }
  | .hostSeqNext => { port := .host, bytes := [0x03#8] }
  | .hostReserved op => { port := .host, bytes := [op] }
  | .codecEncode f => { port := .codec, bytes := [0x00#8] ++ frameOperandBytes f }
  | .codecDecode buf => { port := .codec, bytes := [0x01#8] ++ buf }
  | .codecExtract buf => { port := .codec, bytes := [0x02#8] ++ buf }
  | .codecValidate f => { port := .codec, bytes := [0x03#8] ++ frameOperandBytes f }

/-- The port of a bare table word of `nbits` bits and its bytes, every operand byte zero (log 11). A word of 16 bits is the
first two bytes of an SOF frame, the first in bits 15..8 (the table's match_window), and as many zeros follow as its length
byte says; 3 bits are an EV select and 2 bits a
CODEC_OP select; of the 8-bit words 0..7 are read as EV selects in a whole byte and the others as wire header bytes. -/
def tableInput (nbits w : Nat) : Option Input :=
  if 2 ^ nbits ≤ w then none
  else if nbits = 16 then
    some { port := .wire, bytes := [BitVec.ofNat 8 (w / 256), BitVec.ofNat 8 w] ++ List.replicate (w % 256) 0x00#8 }
  else if nbits = 8 then
    if w < 8 then some { port := .event, bytes := [BitVec.ofNat 8 w] ++ List.replicate 3 0x00#8 }
    else some { port := .wire, bytes := [BitVec.ofNat 8 w] }
  else if nbits = 3 then some { port := .event, bytes := [BitVec.ofNat 8 w] ++ List.replicate 3 0x00#8 }
  else if nbits = 2 then some { port := .codec, bytes := [BitVec.ofNat 8 w] ++ List.replicate 4 0x00#8 }
  else none

/-- The instruction the decoder reads from a bare table word (log 11), with the default kind codes (R9). -/
def decodeTableWord (nbits w : Nat) : Option Instr :=
  match tableInput nbits w with
  | none => none
  | some inp =>
    match decode Cfg.default inp.port inp.bytes with
    | .instr i _ => some i
    | .incomplete => none
    | .invalid _ => none

end Sys2Proof
end

