-- ==== Sys2Proof/Machine/State.lean ====
section
/-! DEFINITION. The engine's state as plain data (10_state.md), its outputs (R31, R82, R222, R223), the reasons a step can stop,
and the state at power-on (R37, R251). -/

namespace Sys2Proof.Machine

/-- Status of a completion (60_exceptions.md R223). -/
inductive Status where
  | success
  | cancelled
deriving DecidableEq, Repr

/-- An element of COMPL (R31, R223): frames in arrival order, none when cancelled. -/
structure Completion where
  tag : Byte
  status : Status
  frames : List Sof
deriving DecidableEq, Repr

/-- An element of LOG (R222), one constructor per code 0x01..0x0B. -/
inductive LogEvent where
  | checksumInvalid (func received : Byte)
  | malformedFrame (len : Byte)
  | deliveryAnomaly (control : Byte)
  | unknownHeader (x : Byte)
  /-- the ordinal runs from 1 to P_RETRY_COUNT -/
  | retransmit (tag : Byte) (ordinal : Nat)
  | retryExhausted (tag : Byte)
  | hardTimeout (tag : Byte)
  | externalCancel (tag : Byte)
  | responseOverflow (tag func : Byte)
  | requestTooLong (n : Nat)
  /-- the reserved opcode or EV value -/
  | reservedCommand (op : Byte)
deriving DecidableEq, Repr

/-- Why a host command is refused (R82). -/
inductive RefuseCode where
  | length
  | opcode
deriving DecidableEq, Repr

/-- An element of REPLY (R82). -/
inductive Reply where
  | accepted (tag : Byte)
  | refused (c : RefuseCode)
  | seqValue (v : Nat)
deriving DecidableEq, Repr

/-- One emission, tagged with the trace it goes to (R31); `codec` is the codec unit's result (R84, log 8). -/
inductive Emission where
  | tx (bs : List Byte)
  | compl (c : Completion)
  | unsol (f : Sof)
  | log (e : LogEvent)
  | reply (r : Reply)
  | codec (r : CodecResult)
deriving DecidableEq, Repr

/-- A queue entry, the source's PendingRequest (R25). -/
structure Entry where
  tag : Byte
  kind : Byte
  func : Byte
  payload : List Byte
  /-- expectsMultiResponse (R163) -/
  multi : Bool
  /-- matched response frames in arrival order; every one is an SOF frame (R25) -/
  resp : List Sof
deriving DecidableEq, Repr

/-- Phase of the head (R34). -/
inductive Phase where
  | idle
  | timing
  | expiring
deriving DecidableEq, Repr

/-- The traces whose elements the host consumes and which have an available indication (R225). -/
inductive Trace where
  | compl
  | unsol
  | log
  | reply
deriving DecidableEq, Repr

/-- How many elements of each trace the host has consumed (R225, log 13). -/
structure Consumed where
  compl : Nat
  unsol : Nat
  log : Nat
  reply : Nat
deriving DecidableEq, Repr

/-- The state. `cfg` is the static record Cfg, passed to the step in the state and written by nothing (R20, log 1). `out` holds
the five output traces in one list, in emission order (R31, R60, log 12). `offered` is the model's own field: what the ports
offer and no step has taken, oldest first (R59, log 4). -/
structure State where
  cfg : Cfg
  /-- S.queue (R24) -/
  queue : List Entry
  /-- S.rt_count (R26) -/
  rtCount : Nat
  /-- S.retries_left (R27) -/
  retriesLeft : Nat
  /-- S.ht_armed (R28) -/
  htArmed : Bool
  /-- S.ht_count (R29) -/
  htCount : Nat
  /-- S.rxbuf (R30) -/
  rxbuf : List Byte
  /-- S.next_tag (R32) -/
  nextTag : Nat
  /-- S.seq (R33) -/
  seq : Nat
  out : List Emission
  consumed : Consumed
  offered : List Input
deriving DecidableEq, Repr

/-- The reason step stops with a fault; no instruction raises one, since the engine never traps (R220). -/
inductive Fault where
  /-- raised by step alone, where Cfg breaks a constraint of R252 point 1, under which the spec's rules do not hold: safe (log 16) -/
  | cfgInvalid
deriving DecidableEq, Repr

/-- Why a step refuses. -/
inductive Refusal where
  /-- raised by an arm of exec for an instruction with no meaning yet: safe; every instruction has one, so nothing raises it -/
  | notModelled (mnemonic : String)
  /-- raised by step for an offered input that no port of the engine can carry (log 22): safe -/
  | undecodable (e : DecodeError)
deriving DecidableEq, Repr

/-- What a meaning answers. -/
abbrev Result := Host.Outcome State Fault Refusal

/-- Power-on with the parameters `c` (R37, R251): the reset table, and every trace empty. The model's own fields are empty
too (log 19). -/
def State.powerOn (c : Cfg) : State :=
  { cfg := c, queue := [], rtCount := 0, retriesLeft := 0, htArmed := false, htCount := 0, rxbuf := [],
    nextTag := 0, seq := 0, out := [], consumed := { compl := 0, unsol := 0, log := 0, reply := 0 }, offered := [] }

/-- The machine right after power-on, with the default parameters (log 2). -/
def State.reset : State := State.powerOn Cfg.default

end Sys2Proof.Machine
end

