-- ==== Sys2Proof/Machine/Flags.lean ====
section
/-! DEFINITION. Flags and derived predicates (10_state.md R34), the trace views of the emission list (R31), the available
indication (60_exceptions.md R225), the settlement condition (R166) and the constraints on Cfg (R252). -/

namespace Sys2Proof

/-- The constraints of 70_reset_and_hazards.md R252 point 1, with R11's range. -/
def Cfg.valid (c : Cfg) : Bool :=
  decide (1 ≤ c.retryInterval ∧ 1 ≤ c.hardTimeout ∧ c.kindReq ≠ c.kindRes ∧ 257 ≤ c.rxBufDepth ∧ 2 ≤ c.respDepth
    ∧ 1 ≤ c.tagWidth ∧ c.tagWidth ≤ 8 ∧ 1 ≤ c.queueDepth ∧ c.queueDepth ≤ 2 ^ c.tagWidth)

/-- P_MULTI_SET(func) (R10). -/
def Cfg.isMulti (c : Cfg) (func : Byte) : Bool := c.multiSet.contains func

namespace Machine

/-- Busy(S) (R34). -/
def busy (s : State) : Bool := !s.queue.isEmpty

/-- Head(S), defined only when Busy(S) (R34). -/
def head? (s : State) : Option Entry := s.queue.head?

/-- Phase of the head (R34). -/
def phase (s : State) : Phase :=
  if busy s then (if s.htArmed then .expiring else .timing) else .idle

/-- DISPATCH is enabled (R161): the queue holds fewer than P_QUEUE_DEPTH entries. -/
def queueHasRoom (s : State) : Bool := decide (s.queue.length < s.cfg.queueDepth)

/-- SettlesOn(e, f) (R166). -/
def settlesOn (c : Cfg) (e : Entry) (f : Sof) : Bool := !e.multi || f.kind == c.kindReq

/-- The tags in use. -/
def tagsInUse (q : List Entry) : List Byte := q.map (·.tag)

/-- The bytes an emission puts on TX. -/
def txOf : Emission → List Byte
  | .tx bs => bs
  | .compl _ => []
  | .unsol _ => []
  | .log _ => []
  | .reply _ => []
  | .codec _ => []

/-- The element an emission puts on COMPL. -/
def complOf : Emission → List Completion
  | .tx _ => []
  | .compl c => [c]
  | .unsol _ => []
  | .log _ => []
  | .reply _ => []
  | .codec _ => []

/-- The element an emission puts on UNSOL. -/
def unsolOf : Emission → List Sof
  | .tx _ => []
  | .compl _ => []
  | .unsol f => [f]
  | .log _ => []
  | .reply _ => []
  | .codec _ => []

/-- The element an emission puts on LOG. -/
def logOf : Emission → List LogEvent
  | .tx _ => []
  | .compl _ => []
  | .unsol _ => []
  | .log e => [e]
  | .reply _ => []
  | .codec _ => []

/-- The element an emission puts on REPLY. -/
def replyOf : Emission → List Reply
  | .tx _ => []
  | .compl _ => []
  | .unsol _ => []
  | .log _ => []
  | .reply r => [r]
  | .codec _ => []

/-- The result an emission shows at the codec unit's output. -/
def codecOf : Emission → List CodecResult
  | .tx _ => []
  | .compl _ => []
  | .unsol _ => []
  | .log _ => []
  | .reply _ => []
  | .codec r => [r]

/-- TX (R31): every byte written to the transport, in order. -/
def State.tx (s : State) : List Byte := s.out.flatMap txOf

/-- COMPL (R31). -/
def State.compl (s : State) : List Completion := s.out.flatMap complOf

/-- UNSOL (R31); every element is an SOF frame. -/
def State.unsol (s : State) : List Sof := s.out.flatMap unsolOf

/-- LOG (R31). -/
def State.log (s : State) : List LogEvent := s.out.flatMap logOf

/-- REPLY (R31). -/
def State.reply (s : State) : List Reply := s.out.flatMap replyOf

/-- The results the codec unit has shown (R84, log 8). -/
def State.codecOut (s : State) : List CodecResult := s.out.flatMap codecOf

/-- The number of elements of a trace. -/
def traceLength (t : Trace) (s : State) : Nat :=
  match t with
  | .compl => s.compl.length
  | .unsol => s.unsol.length
  | .log => s.log.length
  | .reply => s.reply.length

/-- How many elements of a trace the host has consumed. -/
def consumedOf (t : Trace) (s : State) : Nat :=
  match t with
  | .compl => s.consumed.compl
  | .unsol => s.consumed.unsol
  | .log => s.consumed.log
  | .reply => s.consumed.reply

/-- The available indication of a trace (R225): some element is not yet consumed. -/
def available (t : Trace) (s : State) : Bool := decide (consumedOf t s < traceLength t s)

end Machine

end Sys2Proof
end

