-- ==== Sys2Proof/Machine/Ops.lean ====
section
/-! DEFINITION. The shared operations on the state: one update per group of fields, Emit and raise (00_scope.md R17), the buffer
operations (20_memory.md R52), AllocTag (R162), StartHead (R171), Settle (R170), and RESET's table (R250). The engine takes no
exception (60_exceptions.md R220): `raise` is all that an error does besides its rule's own state change. -/

namespace Sys2Proof.Machine

/-- Emit(port, v) (R17): append to an output trace. -/
def State.emit (s : State) (e : Emission) : State := { s with out := s.out ++ [e] }

/-- raise (R17, R220): append to LOG, never a change of control flow. -/
def State.raise (s : State) (e : LogEvent) : State := s.emit (.log e)

/-- S.queue <- q. -/
def State.setQueue (s : State) (q : List Entry) : State := { s with queue := q }

/-- The four fields of the head's timer (R26 to R29). -/
def State.setTimer (s : State) (rt retries : Nat) (armed : Bool) (ht : Nat) : State :=
  { s with rtCount := rt, retriesLeft := retries, htArmed := armed, htCount := ht }

/-- S.rxbuf <- b. -/
def State.setRxbuf (s : State) (b : List Byte) : State := { s with rxbuf := b }

/-- S.next_tag <- t. -/
def State.setNextTag (s : State) (t : Nat) : State := { s with nextTag := t }

/-- S.seq <- v. -/
def State.setSeq (s : State) (v : Nat) : State := { s with seq := v }

/-- What the ports offer. -/
def State.setOffered (s : State) (o : List Input) : State := { s with offered := o }

/-- The host's read positions. -/
def State.setConsumed (s : State) (c : Consumed) : State := { s with consumed := c }

/-- Append(S.rxbuf, b) (R52). It cannot overflow: between steps the buffer holds at most 256 bytes (R34 I7). -/
def appendRx (b : Byte) (s : State) : State := s.setRxbuf (s.rxbuf ++ [b])

/-- Consume(S.rxbuf, n) (R52). -/
def consumeRx (n : Nat) (s : State) : State := s.setRxbuf (s.rxbuf.drop n)

/-- The loop of AllocTag (R162), on fuel: the first tag at or after `t`, counting modulo `m`, that is not in use. -/
def firstFreeTag (used : List Byte) (m : Nat) : Nat → Nat → Nat
  | 0, t => t
  | fuel + 1, t => if BitVec.ofNat 8 t ∈ used then firstFreeTag used m fuel ((t + 1) % m) else t

/-- AllocTag (R162). All `2^P_TAG_WIDTH` tags are tried; a free one exists whenever DISPATCH is enabled. -/
def allocTag (s : State) : Nat × State :=
  let m := 2 ^ s.cfg.tagWidth
  let t := firstFreeTag (tagsInUse s.queue) m m s.nextTag
  (t, s.setNextTag ((t + 1) % m))

/-- The request bytes of an entry, the same on every transmission (R25, R171). -/
def requestBytes (e : Entry) : List Byte :=
  encodedBytes (encodeFrame (.sof { kind := e.kind, func := e.func, payload := e.payload, checksum := 0x00#8 }))

/-- StartHead (R171): transmit the head and arm its timer. It requires Busy(S); with an empty queue it does nothing. -/
def startHead (s : State) : State :=
  match s.queue with
  | [] => s
  | e :: _ => (s.emit (.tx (requestBytes e))).setTimer s.cfg.retryInterval s.cfg.retryCount false 0

/-- The frames a completion carries (R170): a cancelled one has none. -/
def completionFrames (st : Status) (e : Entry) : List Sof :=
  match st with
  | .success => e.resp
  | .cancelled => []

/-- Settle (R170): complete the head, dequeue it, dispose both timers, and start the next head if there is one. It requires
Busy(S); with an empty queue it does nothing (log 15). -/
def settle (st : Status) (s : State) : State :=
  match s.queue with
  | [] => s
  | e :: q =>
    startHead (((s.emit (.compl { tag := e.tag, status := st, frames := completionFrames st e })).setQueue q).setTimer
      0 0 false 0)

/-- RESET's assignments (R250): the reset table; the traces are not changed and nothing is emitted. -/
def resetS (s : State) : State :=
  ((((s.setQueue []).setTimer 0 0 false 0).setRxbuf []).setNextTag 0).setSeq 0

/-- A reserved event or host opcode (R83): a refusal on REPLY, then a LOG element (log 17), no other change. -/
def reservedCommand (op : Byte) (s : State) : State :=
  (s.emit (.reply (.refused .opcode))).raise (.reservedCommand op)

/-- SEQ_NEXT (R211). -/
def seqNext (s : State) : State :=
  (s.setSeq (s.seq % 126 + 1)).emit (.reply (.seqValue (s.seq % 126 + 1)))

/-- The host puts an input behind those already offered (R231, log 4): not a step of the engine. -/
def State.offer (s : State) (inp : Input) : State := s.setOffered (s.offered ++ [inp])

/-- The host consumes the oldest pending element of a trace (R225, log 13): not a step of the engine. -/
def State.consume (s : State) (t : Trace) : State :=
  if available t s then
    match t with
    | .compl => s.setConsumed { s.consumed with compl := s.consumed.compl + 1 }
    | .unsol => s.setConsumed { s.consumed with unsol := s.consumed.unsol + 1 }
    | .log => s.setConsumed { s.consumed with log := s.consumed.log + 1 }
    | .reply => s.setConsumed { s.consumed with reply := s.consumed.reply + 1 }
  else s

end Sys2Proof.Machine
end

