-- ==== Sys2Proof/Machine/CodecUnit.lean ====
section
/-! DEFINITION. The meanings of the codec unit's rows (30_encoding.md R84): the result of a pure operation is shown at the
unit's output; nothing of S and none of the five traces changes (log 8). -/

namespace Sys2Proof.Machine

/-- CODEC_ENCODE (R103). -/
def execCodecEncode (f : Frame) (s : State) : Result := .next (s.emit (.codec (.encoded (encodeFrame f))))

/-- CODEC_DECODE (R106). -/
def execCodecDecode (buf : List Byte) (s : State) : Result := .next (s.emit (.codec (.decoded (decodeFrame buf))))

/-- CODEC_EXTRACT (R107). -/
def execCodecExtract (buf : List Byte) (s : State) : Result :=
  .next (s.emit (.codec (.extracted (extractFrames buf).1 (extractFrames buf).2)))

/-- VALIDATE of an operand as the codec port can carry it: R108, and a free value for an SOF operand longer than any frame (log 24). -/
def validateOperand : Frame → Bool
  | .sof f =>
    if f.payload.length ≤ payloadMax then validateChecksum (.sof f)
    else Cfg.freeValidation f.kind f.func f.payload f.checksum
  | .ack => validateChecksum .ack
  | .nak => validateChecksum .nak
  | .can => validateChecksum .can
  | .unknown b => validateChecksum (.unknown b)
  | .malformed len raw => validateChecksum (.malformed len raw)

/-- CODEC_VALIDATE (R108). -/
def execCodecValidate (f : Frame) (s : State) : Result := .next (s.emit (.codec (.validated (validateOperand f))))

end Sys2Proof.Machine
end

