-- ==== Sys2Proof/Machine/Dispatcher.lean ====
section
/-! DEFINITION. The request dispatcher (42_dispatcher.md): DISPATCH, Correlate, CANCEL, as operations on the state. -/

namespace Sys2Proof.Machine

/-- The queue entry of a request (R161, R163). -/
def newEntry (c : Cfg) (tag : Byte) (kind func : Byte) (payload : List Byte) : Entry :=
  { tag := tag, kind := kind, func := func, payload := payload, multi := c.isMulti func, resp := [] }

/-- DISPATCH's effect in a state where it is enabled (R161). -/
def dispatchEnabled (kind func : Byte) (payload : List Byte) (s : State) : State :=
  if payload.length > payloadMax then
    (s.emit (.reply (.refused .length))).raise (.requestTooLong payload.length)
  else
    let (t, s1) := allocTag s
    let s2 := s1.setQueue (s1.queue ++ [newEntry s.cfg (BitVec.ofNat 8 t) kind func payload])
    let s3 := s2.emit (.reply (.accepted (BitVec.ofNat 8 t)))
    if s3.queue.length = 1 then startHead s3 else s3

/-- DISPATCH (R161). With a full queue it has no step: it is held, that is, offered again as `again` (log 5). -/
def dispatch (again : Input) (kind func : Byte) (payload : List Byte) (s : State) : State :=
  if queueHasRoom s then dispatchEnabled kind func payload s
  else s.setOffered (again :: s.offered)

/-- Correlate (R165 to R169), for a valid SOF frame after its ACK. -/
def correlate (f : Sof) (s : State) : State :=
  match s.queue with
  | [] => s.emit (.unsol f)
  | e :: q =>
    if f.func = e.func then
      if settlesOn s.cfg e f then settle .success (s.setQueue ({ e with resp := e.resp ++ [f] } :: q))
      else if e.resp.length < s.cfg.respDepth - 1 then s.setQueue ({ e with resp := e.resp ++ [f] } :: q)
      else s.raise (.responseOverflow e.tag f.func)
    else s.emit (.unsol f)

/-- CancelQueued (R175) of the first entry behind the head whose tag is `t`; with no such entry, no effect (R176). -/
def cancelQueued (t : Byte) (s : State) : State :=
  match s.queue with
  | [] => s
  | e :: q =>
    match q.find? (fun x => x.tag == t) with
    | none => s
    | some x =>
      ((s.setQueue (e :: q.eraseP (fun x => x.tag == t))).emit
        (.compl { tag := x.tag, status := .cancelled, frames := [] })).raise (.externalCancel x.tag)

/-- CANCEL's effect after its reply (R174). -/
def cancelTag (t : Byte) (s : State) : State :=
  match s.queue with
  | [] => s
  | e :: _ => if e.tag = t then settle .cancelled (s.raise (.externalCancel t)) else cancelQueued t s

/-- CANCEL (R174 to R176). -/
def cancel (t : Byte) (s : State) : State := cancelTag t (s.emit (.reply (.accepted t)))

end Sys2Proof.Machine
end

