-- ==== Sys2Proof/Machine/Receive.lean ====
section
/-! DEFINITION. The receive path (41_receive.md): RX_BYTE, ProcessFrame and the processing of each frame form. -/

namespace Sys2Proof.Machine

/-- SofValid (R132): the ACK byte first, then correlation. -/
def sofValid (f : Sof) (s : State) : State := correlate f (s.emit (.tx [0x06#8]))

/-- SofInvalid (R133): NAK and LOG; the frame is discarded. -/
def sofInvalid (f : Sof) (s : State) : State := (s.emit (.tx [0x15#8])).raise (.checksumInvalid f.func f.checksum)

/-- MalformedFrame (R134): NAK and LOG; the frame is discarded. -/
def malformedReceived (len : Byte) (s : State) : State := (s.emit (.tx [0x15#8])).raise (.malformedFrame len)

/-- AckReceived (R135): no state change and no output. -/
def ackReceived (s : State) : State := s

/-- DeliveryAnomaly (R136) of a control byte: LOG only. -/
def deliveryAnomaly (control : Byte) (s : State) : State := s.raise (.deliveryAnomaly control)

/-- UnknownHeader (R137): LOG only. -/
def unknownReceived (x : Byte) (s : State) : State := s.raise (.unknownHeader x)

/-- An SOF frame by its checksum (R131). -/
def sofReceived (f : Sof) (s : State) : State :=
  if validateChecksum (.sof f) then sofValid f s else sofInvalid f s

/-- ProcessFrame (R131). -/
def processFrame (s : State) : Frame → State
  | .sof f => sofReceived f s
  | .malformed len _ => malformedReceived len s
  | .ack => ackReceived s
  | .nak => deliveryAnomaly 0x15#8 s
  | .can => deliveryAnomaly 0x18#8 s
  | .unknown x => unknownReceived x s

/-- Process the frames extracted from the buffer, in order, once the remainder is stored (R130). -/
def processExtracted (r : List Frame × List Byte) (s : State) : State := r.1.foldl processFrame (s.setRxbuf r.2)

/-- RX_BYTE (R130). -/
def rxByte (b : Byte) (s : State) : State :=
  processExtracted (extractFrames (appendRx b s).rxbuf) (appendRx b s)

end Sys2Proof.Machine
end

