-- ==== Sys2Proof/Machine/Timers.lean ====
section
/-! DEFINITION. The retry timer and the hard timeout (43_timers.md): TICK and its three outcomes. Counts are natural numbers; the
spec's invariants I4 and I5 keep a decremented counter at 1 or more, so stopping at 0 is never reached (log 15). -/

namespace Sys2Proof.Machine

/-- Retransmit (R192) of the head `e`. -/
def retransmit (e : Entry) (s : State) : State :=
  ((s.emit (.tx (requestBytes e))).raise (.retransmit e.tag (s.cfg.retryCount - (s.retriesLeft - 1)))).setTimer
    s.cfg.retryInterval (s.retriesLeft - 1) s.htArmed s.htCount

/-- ArmHardTimeout (R193) for the head `e`; S.rt_count stays as the expiry left it. -/
def armHardTimeout (e : Entry) (s : State) : State :=
  (s.setTimer s.rtCount s.retriesLeft true s.cfg.hardTimeout).raise (.retryExhausted e.tag)

/-- HardTimeoutFire (R194) for the head `e`. -/
def hardTimeoutFire (e : Entry) (s : State) : State := settle .cancelled (s.raise (.hardTimeout e.tag))

/-- TICK in phase TIMING (R190, R191). -/
def tickTiming (e : Entry) (s : State) : State :=
  let s1 := s.setTimer (s.rtCount - 1) s.retriesLeft s.htArmed s.htCount
  if s1.rtCount = 0 then
    if s1.retriesLeft > 0 then retransmit e s1 else armHardTimeout e s1
  else s1

/-- TICK in phase EXPIRING (R190). -/
def tickExpiring (e : Entry) (s : State) : State :=
  let s1 := s.setTimer s.rtCount s.retriesLeft s.htArmed (s.htCount - 1)
  if s1.htCount = 0 then hardTimeoutFire e s1 else s1

/-- TICK (R190). -/
def tick (s : State) : State :=
  match s.queue with
  | [] => s
  | e :: _ => if s.htArmed then tickExpiring e s else tickTiming e s

end Sys2Proof.Machine
end

