-- ==== Sys2Proof/Machine/Events.lean ====
section
/-! DEFINITION. The meanings of the event rows (30_encoding.md R79). -/

namespace Sys2Proof.Machine

/-- EV_NOP (R210): skip. -/
def execEvNop (s : State) : Result := .next s

/-- EV_RX_BYTE (R130). -/
def execEvRxByte (b : Byte) (s : State) : Result := .next (rxByte b s)

/-- EV_TICK (R190). -/
def execEvTick (s : State) : Result := .next (tick s)

/-- EV_DISPATCH (R161). -/
def execEvDispatch (kind func : Byte) (payload : List Byte) (s : State) : Result :=
  .next (dispatch (encode s.cfg (.evDispatch kind func payload)) kind func payload s)

/-- EV_CANCEL (R174). -/
def execEvCancel (tag : Byte) (s : State) : Result := .next (cancel tag s)

/-- EV_SEQ_NEXT (R211). -/
def execEvSeqNext (s : State) : Result := .next (seqNext s)

/-- EV_RESET (R250). -/
def execEvReset (s : State) : Result := .next (resetS s)

/-- EV_RESERVED (R83): the LOG element carries the EV value 7 (R222). -/
def execEvReserved (s : State) : Result := .next (reservedCommand 0x07#8 s)

end Sys2Proof.Machine
end

