-- ==== Sys2Proof/Machine/HostCommands.lean ====
section
/-! DEFINITION. The meanings of the host command rows (30_encoding.md R81): the events NOP, DISPATCH, CANCEL and SEQ_NEXT as
they come in at the byte-serial host port, and the reserved opcodes (R83). -/

namespace Sys2Proof.Machine

/-- HOST_NOP (R210): skip, and no reply (R82). -/
def execHostNop (s : State) : Result := .next s

/-- HOST_DISPATCH (R161). -/
def execHostDispatch (kind func : Byte) (payload : List Byte) (s : State) : Result :=
  .next (dispatch (encode s.cfg (.hostDispatch kind func payload)) kind func payload s)

/-- HOST_CANCEL (R174). -/
def execHostCancel (tag : Byte) (s : State) : Result := .next (cancel tag s)

/-- HOST_SEQ_NEXT (R211). -/
def execHostSeqNext (s : State) : Result := .next (seqNext s)

/-- HOST_RESERVED (R83): the LOG element carries the opcode. -/
def execHostReserved (op : Byte) (s : State) : Result := .next (reservedCommand op s)

end Sys2Proof.Machine
end

