-- ==== Sys2Proof/Machine/Kinds.lean ====
section
/-! DEFINITION. The meanings of the kind-byte rows: a valid SOF frame whose kind byte is that row's is acknowledged and
correlated, and the kind decides in Correlate whether it settles a multi request (42_dispatcher.md R166, 30_encoding.md R75;
log 10). -/

namespace Sys2Proof.Machine

/-- KIND_REQ (R166): settles every matching head. -/
def execKindReq (func : Byte) (payload : List Byte) (s : State) : Result :=
  .next (sofValid (sofOf s.cfg.kindReq func payload) s)

/-- KIND_RES (R166): settles a matching head that is not multi. -/
def execKindRes (func : Byte) (payload : List Byte) (s : State) : Result :=
  .next (sofValid (sofOf s.cfg.kindRes func payload) s)

/-- KIND_OTHER (R75): acknowledged and correlated with its raw kind; never counts as kind Request. -/
def execKindOther (kind func : Byte) (payload : List Byte) (s : State) : Result :=
  .next (sofValid (sofOf kind func payload) s)

end Sys2Proof.Machine
end

