-- ==== Sys2Proof/Machine/WireFrames.lean ====
section
/-! DEFINITION. The meanings of the wire rows: SOF, the two malformed rows, ACK, NAK, CAN, UNKNOWN_HEADER. Each is what the
receive path does with one extracted frame of that form (41_receive.md R131; log 9). -/

namespace Sys2Proof.Machine

/-- SOF (R131 to R133). -/
def execSof (f : Sof) (s : State) : Result := .next (sofReceived f s)

/-- SOF_MALFORMED_LEN0_1 (R134): the length byte is the number of further bytes. -/
def execSofMalformedLen01 (body : Option Byte) (s : State) : Result :=
  match body with
  | none => .next (malformedReceived 0x00#8 s)
  | some _ => .next (malformedReceived 0x01#8 s)

/-- SOF_MALFORMED_LEN2 (R134). -/
def execSofMalformedLen2 (_b0 _b1 : Byte) (s : State) : Result := .next (malformedReceived 0x02#8 s)

/-- ACK (R135). -/
def execAck (s : State) : Result := .next (ackReceived s)

/-- NAK (R136). -/
def execNak (s : State) : Result := .next (deliveryAnomaly 0x15#8 s)

/-- CAN (R136). -/
def execCan (s : State) : Result := .next (deliveryAnomaly 0x18#8 s)

/-- UNKNOWN_HEADER (R137). -/
def execUnknownHeader (x : Byte) (s : State) : Result := .next (unknownReceived x s)

end Sys2Proof.Machine
end

