-- ==== Sys2Proof/Machine/Dispatch.lean ====
section
/-! DEFINITION. exec: one arm per constructor of Instr. -/

namespace Sys2Proof.Machine

def exec (i : Instr) (s : State) : Host.Outcome State Fault Refusal :=
  match i with
  | .sof f => Sys2Proof.Machine.execSof f s
  | .sofMalformedLen01 body => Sys2Proof.Machine.execSofMalformedLen01 body s
  | .sofMalformedLen2 b0 b1 => Sys2Proof.Machine.execSofMalformedLen2 b0 b1 s
  | .ack => Sys2Proof.Machine.execAck s
  | .nak => Sys2Proof.Machine.execNak s
  | .can => Sys2Proof.Machine.execCan s
  | .unknownHeader x => Sys2Proof.Machine.execUnknownHeader x s
  | .kindReq func payload => Sys2Proof.Machine.execKindReq func payload s
  | .kindRes func payload => Sys2Proof.Machine.execKindRes func payload s
  | .kindOther kind func payload => Sys2Proof.Machine.execKindOther kind func payload s
  | .evNop => Sys2Proof.Machine.execEvNop s
  | .evRxByte b => Sys2Proof.Machine.execEvRxByte b s
  | .evTick => Sys2Proof.Machine.execEvTick s
  | .evDispatch kind func payload => Sys2Proof.Machine.execEvDispatch kind func payload s
  | .evCancel tag => Sys2Proof.Machine.execEvCancel tag s
  | .evSeqNext => Sys2Proof.Machine.execEvSeqNext s
  | .evReset => Sys2Proof.Machine.execEvReset s
  | .evReserved => Sys2Proof.Machine.execEvReserved s
  | .hostNop => Sys2Proof.Machine.execHostNop s
  | .hostDispatch kind func payload => Sys2Proof.Machine.execHostDispatch kind func payload s
  | .hostCancel tag => Sys2Proof.Machine.execHostCancel tag s
  | .hostSeqNext => Sys2Proof.Machine.execHostSeqNext s
  | .hostReserved op => Sys2Proof.Machine.execHostReserved op s
  | .codecEncode f => Sys2Proof.Machine.execCodecEncode f s
  | .codecDecode buf => Sys2Proof.Machine.execCodecDecode buf s
  | .codecExtract buf => Sys2Proof.Machine.execCodecExtract buf s
  | .codecValidate f => Sys2Proof.Machine.execCodecValidate f s

end Sys2Proof.Machine
end

