-- ==== Sys2Proof/Machine/Fetch.lean ====
section
/-! DEFINITION. Which offered input the next step takes (20_memory.md R59, 60_exceptions.md R228, 42_dispatcher.md R161;
log 4, log 5, log 6, log 25, log 28): the first that has a step. -/

namespace Sys2Proof.Machine

/-- What looking at the offered inputs gives. -/
inductive Fetched where
  /-- nothing offered has a step: the engine holds its state and does nothing (R238) -/
  | nothing
  /-- the instruction to run, and what stays offered -/
  | run (i : Instr) (offered : List Input)
  /-- an input no port can carry (log 22) -/
  | bad (e : DecodeError)
deriving DecidableEq, Repr

/-- Whether an instruction has a step in a state: every one has, but a DISPATCH with a full queue (R161, R130, R190, R210). -/
def hasStep (s : State) : Instr → Bool
  | .sof _ => true
  | .sofMalformedLen01 _ => true
  | .sofMalformedLen2 _ _ => true
  | .ack => true
  | .nak => true
  | .can => true
  | .unknownHeader _ => true
  | .kindReq _ _ => true
  | .kindRes _ _ => true
  | .kindOther _ _ _ => true
  | .evNop => true
  | .evRxByte _ => true
  | .evTick => true
  | .evDispatch _ _ _ => queueHasRoom s
  | .evCancel _ => true
  | .evSeqNext => true
  | .evReset => true
  | .evReserved => true
  | .hostNop => true
  | .hostDispatch _ _ _ => queueHasRoom s
  | .hostCancel _ => true
  | .hostSeqNext => true
  | .hostReserved _ => true
  | .codecEncode _ => true
  | .codecDecode _ => true
  | .codecExtract _ => true
  | .codecValidate _ => true

/-- The bytes behind an instruction stay offered at its port, in its place. -/
def leftover (p : Port) (rest : List Byte) : List Input :=
  if rest = [] then [] else [{ port := p, bytes := rest }]

/-- The bytes of an incomplete command are completed by the next input at the same port; none if there is none (log 6). -/
def joinNext (inp : Input) : List Input → Option (List Input)
  | [] => none
  | x :: later =>
    if x.port = inp.port then some ({ port := x.port, bytes := inp.bytes ++ x.bytes } :: later)
    else (joinNext inp later).map (x :: ·)

/-- The bytes of a held DISPATCH, without those that stand behind it in its input (log 25). -/
def heldPart (inp : Input) (rest : List Byte) : Input :=
  { port := inp.port, bytes := inp.bytes.take (inp.bytes.length - rest.length) }

/-- The first input that has a step, looking past those that have none, which stay where they are (`passed`). What stands behind a
held DISPATCH passes it, be it a later input (log 5) or the further bytes of the same input, which are looked at as an input of
their own (DESIGN CHOICE, log 25). The look starts at the front in every step, so a held DISPATCH runs as soon as there is room, also
between two bytes of one transport input behind it (DESIGN CHOICE, log 28). The fuel is `fetchFuel`. -/
def fetchFrom (s : State) : Nat → List Input → List Input → Fetched
  | 0, _, _ => .nothing
  | _ + 1, _, [] => .nothing
  | fuel + 1, passed, inp :: later =>
    match decode s.cfg inp.port inp.bytes with
    | .instr i rest =>
      if hasStep s i then .run i (passed ++ leftover inp.port rest ++ later)
      else fetchFrom s fuel (passed ++ [heldPart inp rest]) (leftover inp.port rest ++ later)
    | .incomplete =>
      match joinNext inp later with
      | some later' => fetchFrom s fuel passed later'
      | none => fetchFrom s fuel (passed ++ [inp]) later
    | .invalid e => .bad e

/-- Enough fuel: every round of `fetchFrom` takes an input away or the bytes of a command. -/
def fetchFuel (l : List Input) : Nat := (l.map fun x => x.bytes.length + 1).sum

/-- The input the next step takes. -/
def fetch (s : State) : Fetched := fetchFrom s (fetchFuel s.offered) [] s.offered

/-- The inputs with the bare table word's instruction in front (log 11). -/
def offerWord (s : State) (nbits w : Nat) : List Input :=
  match decodeTableWord nbits w with
  | some i => encode s.cfg i :: s.offered
  | none =>
    match tableInput nbits w with
    | some inp => inp :: s.offered
    | none => s.offered

/-- One step (R2, R57): the first offered input that has a step is taken and its instruction executed; with none the state is
held (R238). With parameters that break R252 the rules do not hold, and step stops (log 16). -/
def stepOf (s : State) : Result :=
  if s.cfg.valid then
    match fetch s with
    | .nothing => .next s
    | .run i offered => exec i (s.setOffered offered)
    | .bad e => .refused (.undecodable e)
  else .fault .cfgInvalid

end Sys2Proof.Machine
end

