-- ==== Sys2Proof/Machine/Step.lean ====
section
/-! DEFINITION. step, and the placing of one bare table word as what the next step takes. -/

namespace Sys2Proof.Machine

/-- One step of the engine (R2, R57). -/
def step (s : State) : Host.Outcome State Fault Refusal := stepOf s

/-- `s` with the instruction of a bare opcode-table word offered in front of everything else, so that the next step takes it
(log 4, log 11). -/
def State.withFetchWord (s : State) (nbits w : Nat) : State := s.setOffered (offerWord s nbits w)

end Sys2Proof.Machine
end

