-- ==== Sys2Proof/Machine/Outputs.lean ====
section
/-! DEFINITION. The byte-serial forms of the outputs: REPLY (30_encoding.md R82), LOG (60_exceptions.md R222) and COMPL (R223). -/

namespace Sys2Proof.Machine

/-- The bytes of a reply (R82). -/
def replyBytes : Reply → List Byte
  | .accepted tag => [0x00#8, tag]
  | .refused .length => [0x01#8, 0x01#8]
  | .refused .opcode => [0x01#8, 0x02#8]
  | .seqValue v => [0x02#8, BitVec.ofNat 8 v]

/-- The code byte of a LOG element (R222). -/
def logCode : LogEvent → Byte
  | .checksumInvalid _ _ => 0x01#8
  | .malformedFrame _ => 0x02#8
  | .deliveryAnomaly _ => 0x03#8
  | .unknownHeader _ => 0x04#8
  | .retransmit _ _ => 0x05#8
  | .retryExhausted _ => 0x06#8
  | .hardTimeout _ => 0x07#8
  | .externalCancel _ => 0x08#8
  | .responseOverflow _ _ => 0x09#8
  | .requestTooLong _ => 0x0A#8
  | .reservedCommand _ => 0x0B#8

/-- The info bytes of a LOG element in the order R222 lists them; a retry ordinal is sent as its low byte (log 14). -/
def logInfo : LogEvent → List Byte
  | .checksumInvalid func received => [func, received]
  | .malformedFrame len => [len]
  | .deliveryAnomaly control => [control]
  | .unknownHeader x => [x]
  | .retransmit tag ordinal => [tag, BitVec.ofNat 8 ordinal]
  | .retryExhausted tag => [tag]
  | .hardTimeout tag => [tag]
  | .externalCancel tag => [tag]
  | .responseOverflow tag func => [tag, func]
  | .requestTooLong n => [BitVec.ofNat 8 n]
  | .reservedCommand op => [op]

/-- The bytes of a LOG element: its code, then its info (R222). -/
def logBytes (e : LogEvent) : List Byte := logCode e :: logInfo e

/-- The status byte (R223). -/
def statusByte : Status → Byte
  | .success => 0x00#8
  | .cancelled => 0x01#8

/-- The bytes of a COMPL element (R223): tag, status, count, then each frame's Encode bytes; a count is sent as its low byte
(log 14). -/
def complBytes (c : Completion) : List Byte :=
  [c.tag, statusByte c.status, BitVec.ofNat 8 c.frames.length]
    ++ c.frames.flatMap fun f => encodedBytes (encodeFrame (.sof f))

end Sys2Proof.Machine
end

