-- ==== Sys2Proof/Machine/Script.lean ====
section
/-! DEFINITION. Pseudo-events (30_encoding.md R89), runs of events (20_memory.md R59), the clocked order of events offered in
one cycle (60_exceptions.md R228), and the text form of frames and event scripts (R86). -/

namespace Sys2Proof.Machine

/-- The events a pseudo-event stands for (R89); RX_FRAME of a frame with no encoding stands for none (R104). -/
def expand : Pseudo → List Instr
  | .rxChunk bs => bs.map .evRxByte
  | .rxFrame f => (encodedBytes (encodeFrame f)).map .evRxByte
  | .wait n => List.replicate n .evTick

/-- The state after a sequence of events (R59), stopping where one stops. -/
def runEvents : List Instr → State → Result
  | [], s => .next s
  | i :: is, s =>
    match exec i s with
    | .next s' => runEvents is s'
    | .fault r => .fault r
    | .refused r => .refused r

/-- The rank of an event in the clocked order RESET, RX_BYTE, CANCEL, DISPATCH, TICK, SEQ_NEXT, NOP (R228, D2). What R228 does
not rank comes after all of them (log 18). -/
def clockRank : Instr → Nat
  | .evReset => 0
  | .evRxByte _ => 1
  | .evCancel _ => 2
  | .hostCancel _ => 2
  | .evDispatch _ _ _ => 3
  | .hostDispatch _ _ _ => 3
  | .evTick => 4
  | .evSeqNext => 5
  | .hostSeqNext => 5
  | .evNop => 6
  | .hostNop => 6
  | .evReserved => 7
  | .hostReserved _ => 7
  | .sof _ => 7
  | .sofMalformedLen01 _ => 7
  | .sofMalformedLen2 _ _ => 7
  | .ack => 7
  | .nak => 7
  | .can => 7
  | .unknownHeader _ => 7
  | .kindReq _ _ => 7
  | .kindRes _ _ => 7
  | .kindOther _ _ _ => 7
  | .codecEncode _ => 7
  | .codecDecode _ => 7
  | .codecExtract _ => 7
  | .codecValidate _ => 7

/-- Put an event behind those of its rank or below. -/
def clockInsert (i : Instr) : List Instr → List Instr
  | [] => [i]
  | x :: xs => if clockRank i < clockRank x then i :: x :: xs else x :: clockInsert i xs

/-- The order in which a clocked realisation takes the events it accepts in one cycle (R228): one of the admitted interleavings. -/
def clockedOrder (is : List Instr) : List Instr := is.foldl (fun acc i => clockInsert i acc) []

/-- A hexadecimal digit. -/
def hexDigit (n : Nat) : String :=
  (["0", "1", "2", "3", "4", "5", "6", "7", "8", "9", "A", "B", "C", "D", "E", "F"] : List String).getD n "0"

/-- A byte as two hexadecimal digits. -/
def hexByte (b : Byte) : String := hexDigit (b.toNat / 16) ++ hexDigit (b.toNat % 16)

/-- Bytes in hexadecimal with a separator. -/
def hexList (sep : String) (bs : List Byte) : String := sep.intercalate (bs.map hexByte)

/-- A kind byte: REQ, RES or a byte (R86). -/
def kindText (c : Cfg) (k : Byte) : String :=
  if k = c.kindReq then "REQ" else if k = c.kindRes then "RES" else "0x" ++ hexByte k

/-- `SOF(kind, func, [p0, p1, ...])` (R86). R86 writes so the frame with its checksum computed and gives no text for another
checksum; that the printer drops the checksum field, right or wrong, is the model's choice (DESIGN CHOICE, log 23). -/
def sofText (c : Cfg) (f : Sof) : String :=
  "SOF(" ++ kindText c f.kind ++ ", 0x" ++ hexByte f.func ++ ", [" ++ hexList ", " f.payload ++ "])"

/-- The text of a frame (R86); R86 gives no form for a malformed frame (log 23). -/
def frameText (c : Cfg) : Frame → String
  | .sof f => sofText c f
  | .ack => "ACK"
  | .nak => "NAK"
  | .can => "CAN"
  | .unknown b => "UNK(0x" ++ hexByte b ++ ")"
  | .malformed _ raw => "MALFORMED[" ++ hexList " " raw ++ "]"

/-- The text of DISPATCH (R86, 95_test_vectors.md). -/
def dispatchText (c : Cfg) (kind func : Byte) (payload : List Byte) : String :=
  "DISPATCH " ++ kindText c kind ++ " 0x" ++ hexByte func ++ " [" ++ hexList " " payload ++ "]"

/-- The text of an event in a script (R86); a wire or kind row is shown by its frame, a reserved command and a codec
operation by name (log 23). -/
def eventText (c : Cfg) : Instr → String
  | .evNop => "NOP"
  | .evRxByte b => "RX 0x" ++ hexByte b
  | .evTick => "TICK"
  | .evDispatch kind func payload => dispatchText c kind func payload
  | .evCancel tag => "CANCEL " ++ toString tag.toNat
  | .evSeqNext => "SEQ_NEXT"
  | .evReset => "RESET"
  | .evReserved => "RESERVED 0x07"
  | .hostNop => "NOP"
  | .hostDispatch kind func payload => dispatchText c kind func payload
  | .hostCancel tag => "CANCEL " ++ toString tag.toNat
  | .hostSeqNext => "SEQ_NEXT"
  | .hostReserved op => "RESERVED 0x" ++ hexByte op
  | .sof f => sofText c f
  | .sofMalformedLen01 none => "MALFORMED[01 00]"
  | .sofMalformedLen01 (some a) => "MALFORMED[01 01 " ++ hexByte a ++ "]"
  | .sofMalformedLen2 a b => "MALFORMED[01 02 " ++ hexByte a ++ " " ++ hexByte b ++ "]"
  | .ack => "ACK"
  | .nak => "NAK"
  | .can => "CAN"
  | .unknownHeader x => "UNK(0x" ++ hexByte x ++ ")"
  | .kindReq func payload => sofText c (sofOf c.kindReq func payload)
  | .kindRes func payload => sofText c (sofOf c.kindRes func payload)
  | .kindOther kind func payload => sofText c (sofOf kind func payload)
  | .codecEncode f => "CODEC_ENCODE " ++ frameText c f
  | .codecDecode buf => "CODEC_DECODE [" ++ hexList " " buf ++ "]"
  | .codecExtract buf => "CODEC_EXTRACT [" ++ hexList " " buf ++ "]"
  | .codecValidate f => "CODEC_VALIDATE " ++ frameText c f

end Sys2Proof.Machine
end

