-- ==== Sys2Proof/Safety.lean ====
section
/-! DEFINITION. What a good state is, in the terms the statements use: the invariants of 10_state.md R34 (I1 to I8) with the
ranges R24 to R33 give the state elements. -/

namespace Sys2Proof.Machine

/-- A buffer that holds no whole frame (R34 I7): empty, or an SOF header with fewer bytes than its frame takes. -/
def incompleteBuffer (b : List Byte) : Prop :=
  b = [] ∨ (b.getD 0 0#8 = 0x01#8 ∧ (b.length = 1 ∨ (2 ≤ b.length ∧ b.length < (b.getD 1 0#8).toNat + 2)))

/-- What R25 says of one entry. I8's clause on kinds is stated for every frame of `resp`, not all but the last: a frame of kind
Request settles a multi request in the step that retains it, so none is ever left in the queue. -/
structure EntryGood (c : Cfg) (e : Entry) : Prop where
  tagInRange : e.tag.toNat < 2 ^ c.tagWidth
  payloadFits : e.payload.length ≤ payloadMax
  multiFromFunc : e.multi = c.isMulti e.func
  respFits : e.resp.length ≤ c.respDepth
  respValid : ∀ f ∈ e.resp, validateChecksum (.sof f) = true
  respFunc : ∀ f ∈ e.resp, f.func = e.func
  respNotRequest : e.multi = true → ∀ f ∈ e.resp, f.kind ≠ c.kindReq

/-- The invariants of R34, with the ranges of R25 to R33. -/
structure GoodState (s : State) : Prop where
  cfgValid : s.cfg.valid = true
  queueFits : s.queue.length ≤ s.cfg.queueDepth
  tagsDistinct : (tagsInUse s.queue).Nodup
  idleTimer : phase s = .idle → s.rtCount = 0 ∧ s.retriesLeft = 0 ∧ s.htArmed = false ∧ s.htCount = 0
  timingTimer : phase s = .timing → 1 ≤ s.rtCount ∧ s.rtCount ≤ s.cfg.retryInterval ∧ s.htCount = 0
  expiringTimer : phase s = .expiring →
    s.retriesLeft = 0 ∧ s.rtCount = 0 ∧ 1 ≤ s.htCount ∧ s.htCount ≤ s.cfg.hardTimeout
  onlyHeadHasResp : ∀ e ∈ s.queue.tail, e.resp = []
  bufferIncomplete : incompleteBuffer s.rxbuf
  entriesGood : ∀ e ∈ s.queue, EntryGood s.cfg e
  retriesInRange : s.retriesLeft ≤ s.cfg.retryCount
  nextTagInRange : s.nextTag < 2 ^ s.cfg.tagWidth
  seqInRange : s.seq ≤ 126

/-- The traces only grow (R31): what was emitted before stands unchanged in front of what is emitted now. -/
def tracesGrow (s s' : State) : Prop := ∃ new, s'.out = s.out ++ new

/-- The host's read positions lie within the traces (R225). -/
def consumedWithin (s : State) : Prop :=
  s.consumed.compl ≤ s.compl.length ∧ s.consumed.unsol ≤ s.unsol.length
    ∧ s.consumed.log ≤ s.log.length ∧ s.consumed.reply ≤ s.reply.length

end Sys2Proof.Machine
end

