-- ==== Sys2Proof/Certificates/Slice0/Obligations.lean ====
section
/-! DEFINITION. The statements for the provers. Results are given as whole states written out field by field, so that each
says its frame too: a field not named is unchanged, and `out` is the emissions of the step in their order (20_memory.md R60). -/

namespace Sys2Proof.Claims

open Sys2Proof Sys2Proof.Machine

/-- DISPATCH as an event or as a host command. -/
def isDispatch : Instr → Prop
  | .evDispatch _ _ _ => True
  | .hostDispatch _ _ _ => True
  | _ => False

/-- The two rows of DISPATCH with these operands. -/
def dispatchRows (kind func : Byte) (payload : List Byte) : List Instr :=
  [.evDispatch kind func payload, .hostDispatch kind func payload]

/-- The two rows of CANCEL. -/
def cancelRows (tag : Byte) : List Instr := [.evCancel tag, .hostCancel tag]

/-- The rows SOF, KIND_REQ, KIND_RES, KIND_OTHER as they present a valid SOF frame to the receive path. -/
inductive PresentsValidSof (c : Cfg) : Instr → Sof → Prop where
  | sof (f : Sof) (h : validateChecksum (.sof f) = true) : PresentsValidSof c (.sof f) f
  | kindReq (func : Byte) (p : List Byte) : PresentsValidSof c (.kindReq func p) (sofOf c.kindReq func p)
  | kindRes (func : Byte) (p : List Byte) : PresentsValidSof c (.kindRes func p) (sofOf c.kindRes func p)
  | kindOther (kind func : Byte) (p : List Byte) : PresentsValidSof c (.kindOther kind func p) (sofOf kind func p)

/-- The state once the head has left the queue with `pre` emitted (R170, R171): `q` is the queue behind it; the timers are
disposed, and the next head, if there is one, is transmitted and its timer armed. -/
def headLeft (s : State) (q : List Entry) (pre : List Emission) : State :=
  match q with
  | [] =>
    { s with queue := [], rtCount := 0, retriesLeft := 0, htArmed := false, htCount := 0, out := s.out ++ pre }
  | e :: q' =>
    { s with queue := e :: q', rtCount := s.cfg.retryInterval, retriesLeft := s.cfg.retryCount, htArmed := false,
             htCount := 0, out := s.out ++ pre ++ [.tx (requestBytes e)] }

/-- Retransmissions 1 to k of an entry, as emitted (R192). -/
def retransmissions (e : Entry) (k : Nat) : List Emission :=
  (List.range k).flatMap fun j => [.tx (requestBytes e), .log (.retransmit e.tag (j + 1))]

/-- T of R235: the ticks within which a head completes. -/
def completionBound (c : Cfg) : Nat := (c.retryCount + 1) * c.retryInterval + c.hardTimeout

/-- The tag of an Accepted reply (R82). -/
def acceptedTag : Reply → List Byte
  | .accepted tag => [tag]
  | .refused _ => []
  | .seqValue _ => []

/-- The tags DISPATCH handed out in a step (R82, R161). -/
def acceptedBy (i : Instr) (s t : State) : List Byte :=
  match i with
  | .evDispatch _ _ _ => (t.reply.drop s.reply.length).flatMap acceptedTag
  | .hostDispatch _ _ _ => (t.reply.drop s.reply.length).flatMap acceptedTag
  | _ => []

/-- The instructions whose rules write the queue and the head's timer: DISPATCH, CANCEL, reception of an SOF frame, RX_BYTE, TICK,
RESET (R24, R26 to R29). -/
def writesQueue : Instr → Prop
  | .sof _ => True
  | .kindReq _ _ => True
  | .kindRes _ _ => True
  | .kindOther _ _ _ => True
  | .evRxByte _ => True
  | .evTick => True
  | .evDispatch _ _ _ => True
  | .hostDispatch _ _ _ => True
  | .evCancel _ => True
  | .hostCancel _ => True
  | .evReset => True
  | _ => False

/-- The four timer fields are as they were. -/
def sameTimer (s t : State) : Prop :=
  t.rtCount = s.rtCount ∧ t.retriesLeft = s.retriesLeft ∧ t.htArmed = s.htArmed ∧ t.htCount = s.htCount

/-- Bytes at a port that are DISPATCHes and nothing else. -/
inductive OnlyDispatches (c : Cfg) (p : Port) : List Byte → Prop where
  | one (bs : List Byte) (i : Instr) (h : decode c p bs = .instr i []) (d : isDispatch i) : OnlyDispatches c p bs
  | more (bs rest : List Byte) (i : Instr) (h : decode c p bs = .instr i rest) (d : isDispatch i)
      (r : OnlyDispatches c p rest) : OnlyDispatches c p bs

/-- What is offered at a port, as one string. -/
def streamAt (p : Port) (l : List Input) : List Byte := (l.filter fun x => x.port = p).flatMap (·.bytes)

end Sys2Proof.Claims

open Sys2Proof Sys2Proof.Machine Sys2Proof.Claims

/-! ## Encoding -/

/-- A few words written out from the spec's encodings decode to the instruction they stand for (R71, R72, R79, R81, R84), and the
ports of R79 and R231 carry their events: each transport byte is an RX_BYTE, the time base's strobe a TICK, the reset input's a
RESET. That EV and CODEC_OP come as one byte with their operands behind (log 7, log 8), and that whole frames and kind bytes have
ports of their own (log 9, log 10), is the model's choice. -/
def Obligations.WrittenOutWordsDecode : Prop :=
  decode Cfg.default .wire [0x01#8, 0x03#8, 0x01#8, 0x15#8, 0xE8#8] = .instr (.sof ⟨0x01#8, 0x15#8, [], 0xE8#8⟩) [] ∧
  decode Cfg.default .wire [0x01#8, 0x00#8] = .instr (.sofMalformedLen01 none) [] ∧
  decode Cfg.default .wire [0x01#8, 0x02#8, 0xAA#8, 0xBB#8] = .instr (.sofMalformedLen2 0xAA#8 0xBB#8) [] ∧
  decode Cfg.default .wire [0x18#8] = .instr .can [] ∧
  decode Cfg.default .event [0x06#8] = .instr .evReset [] ∧
  decode Cfg.default .host [0x01#8, 0x01#8, 0x42#8, 0x01#8, 0x00#8] = .instr (.hostDispatch 0x01#8 0x42#8 [0x00#8]) [] ∧
  decode Cfg.default .host [0x04#8] = .instr (.hostReserved 0x04#8) [] ∧
  decode Cfg.default .kind [0x02#8, 0x13#8, 0x01#8] = .instr (.kindRes 0x13#8 [0x01#8]) [] ∧
  decode Cfg.default .codec [0x01#8, 0x06#8] = .instr (.codecDecode [0x06#8]) [] ∧
  (∀ (c : Cfg) (b : Byte) (rest : List Byte), decode c .transport (b :: rest) = .instr (.evRxByte b) rest) ∧
  (∀ c : Cfg, decode c .timeBase [] = .instr .evTick []) ∧
  (∀ c : Cfg, decode c .resetInput [] = .instr .evReset [])

/-- Every well-formed instruction, with every operand, is what its encoding decodes to (R70 to R85). The layouts at the event and
codec ports and the ports of the wire and kind rows are the model's choice (log 7 to log 10). -/
def Obligations.DecodeOfEncodeIsTheInstruction : Prop :=
  ∀ (c : Cfg) (i : Instr), c.valid = true → i.wellFormed c = true →
    decode c (encode c i).port (encode c i).bytes = .instr i []

/-- What decodes at a port that has encodings of its own is well formed, and its encoding is the bytes it was decoded from (R70 to
R85). The layouts at the event and codec ports and the ports of the wire and kind rows are the model's choice (log 7 to log 10). -/
def Obligations.EncodeOfDecodeIsTheBytes : Prop :=
  ∀ (c : Cfg) (p : Port) (bs : List Byte) (i : Instr) (rest : List Byte),
    p ∈ [Port.wire, .kind, .event, .host, .codec] → decode c p bs = .instr i rest →
      i.wellFormed c = true ∧ (encode c i).port = p ∧ (encode c i).bytes ++ rest = bs

/-! ## Codec -/

/-- R101: the checksum is the xor of 0xFF and the covered bytes folded in any order, from the left or the right. R100 and R101 speak of
at most 252 payload bytes; that a longer list's length byte is N + 3 reduced modulo 256 is the model's choice (DESIGN CHOICE, log 24),
which this statement contains. -/
def Obligations.ChecksumIsOrderFree : Prop :=
  ∀ (kind func : Byte) (payload l : List Byte),
    l.Perm ([0xFF#8, BitVec.ofNat 8 (payload.length + 3), kind, func] ++ payload) →
      xorFold l = checksum kind func payload ∧ l.foldl (· ^^^ ·) 0x00#8 = checksum kind func payload

/-- R102: a decoded SOF frame is valid exactly when all its bytes after the header fold to 0xFF, that is, when 0xFF and the
bytes between header and checksum fold to the checksum byte. -/
def Obligations.ValidIffBytesFoldToFF : Prop :=
  ∀ (b : List Byte) (f : Sof) (n : Nat), decodeFrame b = some (.sof f, n) →
    (validateChecksum (.sof f) = true ↔ xorFold ((b.take n).drop 1) = 0xFF#8) ∧
    (validateChecksum (.sof f) = true ↔ 0xFF#8 ^^^ xorFold (((b.take n).drop 1).dropLast) = b.getD (n - 1) 0#8)

/-- R109: decoding an encoded frame gives it back with its checksum computed and valid, the frame itself where its checksum was
right already; and the one-byte frames come back as they are. -/
def Obligations.FrameRoundTrip : Prop :=
  (∀ f : Sof, f.payload.length ≤ 252 → ∃ bs, encodeFrame (.sof f) = .bytes bs ∧
    decodeFrame bs = some (.sof ⟨f.kind, f.func, f.payload, checksum f.kind f.func f.payload⟩, f.payload.length + 5) ∧
    validateChecksum (.sof ⟨f.kind, f.func, f.payload, checksum f.kind f.func f.payload⟩) = true ∧
    (f.checksum = checksum f.kind f.func f.payload → decodeFrame bs = some (.sof f, f.payload.length + 5))) ∧
  (∀ g : Frame, (g = .ack ∨ g = .nak ∨ g = .can ∨ ∃ b, g = .unknown b ∧ b ∉ [0x01#8, 0x06#8, 0x15#8, 0x18#8]) →
    ∃ bs, encodeFrame g = .bytes bs ∧ decodeFrame bs = some (g, 1))

/-- R110: bytes behind a frame do not change what DECODE gives; an incomplete buffer that is not empty starts with 0x01 and is
a proper prefix of some frame. -/
def Obligations.DecodePrefix : Prop :=
  (∀ (b c : List Byte) (f : Frame) (n : Nat), decodeFrame b = some (f, n) → decodeFrame (b ++ c) = some (f, n)) ∧
  (∀ b : List Byte, decodeFrame b = none → b ≠ [] →
    b.head? = some 0x01#8 ∧ ∃ (c : List Byte) (f : Frame), c ≠ [] ∧ decodeFrame (b ++ c) = some (f, (b ++ c).length))

/-- R107: EXTRACT cuts the buffer into the bytes of its frames, each consumed by exactly one frame, and an incomplete rest. -/
def Obligations.ExtractCutsTheBuffer : Prop :=
  ∀ b : List Byte, ∃ chunks : List (List Byte),
    chunks.flatten ++ (extractFrames b).2 = b ∧
    List.Forall₂ (fun c f => decodeFrame c = some (f, c.length)) chunks (extractFrames b).1 ∧
    decodeFrame (extractFrames b).2 = none

/-- R111: flipping one bit of a valid SOF frame's bytes, in any byte but the header and the length byte, gives bytes that decode
to a frame with an invalid checksum. -/
def Obligations.OneFlippedBitIsDetected : Prop :=
  ∀ (kind func : Byte) (payload : List Byte) (i j : Nat), payload.length ≤ 252 → 2 ≤ i → i < payload.length + 5 → j < 8 →
    ∃ g n, decodeFrame ((sofBytes (sofOf kind func payload)).modify i (· ^^^ BitVec.twoPow 8 j)) = some (.sof g, n) ∧
      validateChecksum (.sof g) = false

/-- R112: an encoded SOF frame with N payload bytes has N + 5 bytes and length byte N + 3. -/
def Obligations.EncodedLength : Prop :=
  ∀ (f : Sof) (bs : List Byte), encodeFrame (.sof f) = .bytes bs →
    bs.length = f.payload.length + 5 ∧ (bs.getD 1 0#8).toNat = f.payload.length + 3

/-- R104: ENCODE refuses exactly an SOF frame with more than 252 payload bytes and a malformed frame. That operands of the forms Unknown
and Malformed which are no frame values of R23 are answered by their form too is the model's choice (log 27). -/
def Obligations.EncodeRefusals : Prop :=
  ∀ (f : Frame), (∃ r, encodeFrame f = .refused r) ↔
    ((∃ g, f = .sof g ∧ 252 < g.payload.length) ∨ ∃ len raw, f = .malformed len raw)

/-- R84: the four operations of the codec unit (CODEC_ENCODE, CODEC_DECODE, CODEC_EXTRACT, CODEC_VALIDATE) complete in every
state and change nothing but show their result. That results are kept in emission order is the model's choice (log 8), and so is
that VALIDATE of an SOF operand with more than 252 payload bytes shows some value, which no rule gives (log 24), and that Unknown and
Malformed operands which are no frame values of R23 are answered by their form (log 27). -/
def Obligations.CodecUnitShowsItsResult : Prop :=
  ∀ (s : State) (f : Frame) (b : List Byte),
    exec (.codecEncode f) s = .next { s with out := s.out ++ [.codec (.encoded (encodeFrame f))] } ∧
    exec (.codecDecode b) s = .next { s with out := s.out ++ [.codec (.decoded (decodeFrame b))] } ∧
    exec (.codecExtract b) s = .next { s with out := s.out ++ [.codec (.extracted (extractFrames b).1 (extractFrames b).2)] } ∧
    ((∀ g, f = .sof g → g.payload.length ≤ 252) →
      exec (.codecValidate f) s = .next { s with out := s.out ++ [.codec (.validated (validateChecksum f))] }) ∧
    ∃ ok, exec (.codecValidate f) s = .next { s with out := s.out ++ [.codec (.validated ok)] }

/-! ## Receive path -/

/-- R133: an SOF frame with a wrong checksum is answered by NAK, logged and discarded. -/
def Obligations.InvalidSofIsNaked : Prop :=
  ∀ (s : State) (f : Sof), f.checksum ≠ checksum f.kind f.func f.payload →
    exec (.sof f) s = .next { s with out := s.out ++ [.tx [0x15#8], .log (.checksumInvalid f.func f.checksum)] }

/-- R134: the malformed forms (SOF_MALFORMED_LEN0_1, SOF_MALFORMED_LEN2) are answered by NAK, logged and discarded. -/
def Obligations.MalformedSofIsNaked : Prop :=
  ∀ (s : State) (a b : Byte),
    exec (.sofMalformedLen01 none) s = .next { s with out := s.out ++ [.tx [0x15#8], .log (.malformedFrame 0x00#8)] } ∧
    exec (.sofMalformedLen01 (some a)) s = .next { s with out := s.out ++ [.tx [0x15#8], .log (.malformedFrame 0x01#8)] } ∧
    exec (.sofMalformedLen2 a b) s = .next { s with out := s.out ++ [.tx [0x15#8], .log (.malformedFrame 0x02#8)] }

/-- R135, R136, R137: a one-byte frame is never answered; ACK changes nothing, NAK, CAN and an unknown header are only logged. -/
def Obligations.OneByteFramesAreOnlyLogged : Prop :=
  ∀ (s : State) (x : Byte),
    exec .ack s = .next s ∧
    exec .nak s = .next { s with out := s.out ++ [.log (.deliveryAnomaly 0x15#8)] } ∧
    exec .can s = .next { s with out := s.out ++ [.log (.deliveryAnomaly 0x18#8)] } ∧
    exec (.unknownHeader x) s = .next { s with out := s.out ++ [.log (.unknownHeader x)] }

/-- R132, R165, R166, R170, R171: a valid SOF frame (rows SOF, KIND_REQ, KIND_RES, KIND_OTHER) with the head's function code
settles the head when the head is not multi or the frame's kind is P_KIND_REQ: ACK, then COMPL with every matched frame, then the
next head's request. What the KIND rows mean is read from the table (DEDUCED, log 10). -/
def Obligations.MatchingFrameSettlesHead : Prop :=
  ∀ (s : State) (i : Instr) (f : Sof) (e : Entry) (q : List Entry), PresentsValidSof s.cfg i f →
    s.queue = e :: q → f.func = e.func → (e.multi = false ∨ f.kind = s.cfg.kindReq) →
      exec i s = .next (headLeft s q [.tx [0x06#8], .compl ⟨e.tag, .success, e.resp ++ [f]⟩])

/-- R165, R166: a valid SOF frame (rows SOF, KIND_REQ, KIND_RES, KIND_OTHER) with the function code of a multi head and a kind
other than P_KIND_REQ is acknowledged and retained while there is room, and settles nothing. What the KIND rows mean is read from the
table (DEDUCED, log 10). -/
def Obligations.NonRequestFrameIsRetained : Prop :=
  ∀ (s : State) (i : Instr) (f : Sof) (e : Entry) (q : List Entry), PresentsValidSof s.cfg i f →
    s.queue = e :: q → f.func = e.func → e.multi = true → f.kind ≠ s.cfg.kindReq → e.resp.length + 1 < s.cfg.respDepth →
      exec i s = .next { s with queue := { e with resp := e.resp ++ [f] } :: q, out := s.out ++ [.tx [0x06#8]] }

/-- R167, R166: past P_RESP_DEPTH - 1 retained frames such a frame (rows SOF, KIND_REQ, KIND_RES, KIND_OTHER) is acknowledged,
dropped and logged. What the KIND rows mean is read from the table (DEDUCED, log 10). -/
def Obligations.ResponseOverflowIsLogged : Prop :=
  ∀ (s : State) (i : Instr) (f : Sof) (e : Entry) (q : List Entry), PresentsValidSof s.cfg i f →
    s.queue = e :: q → f.func = e.func → e.multi = true → f.kind ≠ s.cfg.kindReq → s.cfg.respDepth ≤ e.resp.length + 1 →
      exec i s = .next { s with out := s.out ++ [.tx [0x06#8], .log (.responseOverflow e.tag f.func)] }

/-- R168: a valid SOF frame (rows SOF, KIND_REQ, KIND_RES, KIND_OTHER) that does not carry the head's function code, or comes with
no request pending, is acknowledged and goes to UNSOL unchanged. What the KIND rows mean is read from the table (DEDUCED, log 10). -/
def Obligations.UnmatchedFrameIsUnsolicited : Prop :=
  ∀ (s : State) (i : Instr) (f : Sof), PresentsValidSof s.cfg i f →
    (∀ e q, s.queue = e :: q → f.func ≠ e.func) →
      exec i s = .next { s with out := s.out ++ [.tx [0x06#8], .unsol f] }

/-- R179: a multi request settles on a Response-kind and then a Request-kind frame of its function code, with both frames in
arrival order; a single-response request settles on its first matching frame, whatever its kind. -/
def Obligations.MultiResponseLaw : Prop :=
  (∀ (s : State) (e : Entry) (q : List Entry) (f g : Sof), 2 ≤ s.cfg.respDepth → s.cfg.kindReq ≠ s.cfg.kindRes →
    s.queue = e :: q → e.multi = true → e.resp = [] →
    validateChecksum (.sof f) = true → f.func = e.func → f.kind = s.cfg.kindRes →
    validateChecksum (.sof g) = true → g.func = e.func → g.kind = s.cfg.kindReq →
      ∃ s1 t, exec (.sof f) s = .next s1 ∧ s1.queue = { e with resp := [f] } :: q ∧ s1.compl = s.compl ∧
        exec (.sof g) s1 = .next t ∧ t.queue = q ∧ t.compl = s.compl ++ [⟨e.tag, .success, [f, g]⟩]) ∧
  (∀ (s : State) (e : Entry) (q : List Entry) (f : Sof), s.queue = e :: q → e.multi = false → e.resp = [] →
    validateChecksum (.sof f) = true → f.func = e.func →
      ∃ t, exec (.sof f) s = .next t ∧ t.queue = q ∧ t.compl = s.compl ++ [⟨e.tag, .success, [f]⟩])

/-- R130: a byte that completes no frame only grows the buffer; one that completes a frame empties the buffer and has exactly
the effect of that frame's row. Either way RX_BYTE completes. -/
def Obligations.RxByteRunsTheCompletedFrame : Prop :=
  ∀ (s : State) (b : Byte), incompleteBuffer s.rxbuf →
    (decodeFrame (s.rxbuf ++ [b]) = none → exec (.evRxByte b) s = .next { s with rxbuf := s.rxbuf ++ [b] }) ∧
    (∀ f n, decodeFrame (s.rxbuf ++ [b]) = some (f, n) →
      ∃ t, exec (.evRxByte b) s = .next t ∧ exec (instrOfFrame f) { s with rxbuf := [] } = .next t)

/-- R138: one RX_BYTE extracts at most one frame, and the buffer is then empty. -/
def Obligations.AtMostOneFramePerByte : Prop :=
  ∀ (buf : List Byte) (b : Byte), incompleteBuffer buf →
    ((incompleteBuffer (buf ++ [b]) ∧ extractFrames (buf ++ [b]) = ([], buf ++ [b])) ∨
      ∃ f, extractFrames (buf ++ [b]) = ([f], [])) ∧
    (buf = [] → b ≠ 0x01#8 → ∃ f, decodeFrame [b] = some (f, 1) ∧ extractFrames [b] = ([f], []))

/-- R65: the bytes of a string delivered one by one process the frames of ExtractFrames(rxbuf ++ B), in order, each as its wire
row does, and leave its remainder in the buffer: only the string counts, not how it was split. -/
def Obligations.ChunkingLaw : Prop :=
  ∀ (s : State) (bs : List Byte), incompleteBuffer s.rxbuf →
    ∃ t, runEvents (bs.map .evRxByte) s = .next t ∧
      runEvents ((extractFrames (s.rxbuf ++ bs)).1.map instrOfFrame) { s with rxbuf := (extractFrames (s.rxbuf ++ bs)).2 } = .next t ∧
      t.rxbuf = (extractFrames (s.rxbuf ++ bs)).2

/-! ## Dispatcher -/

/-- R161, R171: a DISPATCH (EV_DISPATCH, HOST_DISPATCH) into an empty queue is accepted and transmitted in the same step. -/
def Obligations.DispatchIntoIdleTransmits : Prop :=
  ∀ (s : State) (kind func : Byte) (payload : List Byte), s.queue = [] → 1 ≤ s.cfg.queueDepth → payload.length ≤ 252 →
    ∀ i ∈ dispatchRows kind func payload, exec i s = .next
      { s with
        queue := [⟨BitVec.ofNat 8 s.nextTag, kind, func, payload, s.cfg.isMulti func, []⟩],
        rtCount := s.cfg.retryInterval, retriesLeft := s.cfg.retryCount, htArmed := false, htCount := 0,
        nextTag := (s.nextTag + 1) % 2 ^ s.cfg.tagWidth,
        out := s.out ++ [.reply (.accepted (BitVec.ofNat 8 s.nextTag)),
          .tx ([0x01#8, BitVec.ofNat 8 (payload.length + 3), kind, func] ++ payload ++ [checksum kind func payload])] }

/-- R161, R162, R164: a DISPATCH behind a busy head is queued under the first free tag at or after next_tag, counting modulo
2^P_TAG_WIDTH, and transmits nothing. -/
def Obligations.DispatchBehindBusyQueues : Prop :=
  ∀ (s : State) (kind func : Byte) (payload : List Byte), s.cfg.valid = true → s.nextTag < 2 ^ s.cfg.tagWidth →
    s.queue ≠ [] → s.queue.length < s.cfg.queueDepth → payload.length ≤ 252 →
    ∃ k < 2 ^ s.cfg.tagWidth,
      BitVec.ofNat 8 ((s.nextTag + k) % 2 ^ s.cfg.tagWidth) ∉ tagsInUse s.queue ∧
      (∀ j < k, BitVec.ofNat 8 ((s.nextTag + j) % 2 ^ s.cfg.tagWidth) ∈ tagsInUse s.queue) ∧
      ∀ i ∈ dispatchRows kind func payload, exec i s = .next
        { s with
          queue := s.queue ++
            [⟨BitVec.ofNat 8 ((s.nextTag + k) % 2 ^ s.cfg.tagWidth), kind, func, payload, s.cfg.isMulti func, []⟩],
          nextTag := ((s.nextTag + k) % 2 ^ s.cfg.tagWidth + 1) % 2 ^ s.cfg.tagWidth,
          out := s.out ++ [.reply (.accepted (BitVec.ofNat 8 ((s.nextTag + k) % 2 ^ s.cfg.tagWidth)))] }

/-- R161: an enabled DISPATCH of more than 252 payload bytes is refused with its two outputs and allocates no tag. -/
def Obligations.DispatchTooLongIsRefused : Prop :=
  ∀ (s : State) (kind func : Byte) (payload : List Byte), s.queue.length < s.cfg.queueDepth → 252 < payload.length →
    ∀ i ∈ dispatchRows kind func payload, exec i s = .next
      { s with out := s.out ++ [.reply (.refused .length), .log (.requestTooLong payload.length)] }

/-- R161: with a full queue a DISPATCH has no step: nothing of the engine changes and the command stays offered (log 5). -/
def Obligations.DispatchIsHeldWhenFull : Prop :=
  ∀ (s : State) (kind func : Byte) (payload : List Byte), s.cfg.queueDepth ≤ s.queue.length →
    ∀ i ∈ dispatchRows kind func payload, exec i s = .next { s with offered := encode s.cfg i :: s.offered }

/-- R174: a CANCEL (EV_CANCEL, HOST_CANCEL) of the head settles it as CANCELLED with no frames, and the next head starts. -/
def Obligations.CancelOfHeadSettlesIt : Prop :=
  ∀ (s : State) (e : Entry) (q : List Entry), s.queue = e :: q → ∀ i ∈ cancelRows e.tag,
    exec i s = .next (headLeft s q
      [.reply (.accepted e.tag), .log (.externalCancel e.tag), .compl ⟨e.tag, .cancelled, []⟩])

/-- R175: a CANCEL of an entry behind the head removes that entry alone, never transmitted; the head, its timer and the order of
the others are unchanged. -/
def Obligations.CancelBehindHeadRemovesIt : Prop :=
  ∀ (s : State) (h e : Entry) (q1 q2 : List Entry), s.queue = h :: (q1 ++ e :: q2) →
    h.tag ≠ e.tag → (∀ x ∈ q1, x.tag ≠ e.tag) → ∀ i ∈ cancelRows e.tag,
      exec i s = .next { s with
        queue := h :: (q1 ++ q2),
        out := s.out ++ [.reply (.accepted e.tag), .compl ⟨e.tag, .cancelled, []⟩, .log (.externalCancel e.tag)] }

/-- R176: a CANCEL whose tag is in no entry changes no state and emits only its Accepted reply. -/
def Obligations.CancelOfUnknownTagOnlyReplies : Prop :=
  ∀ (s : State) (tag : Byte), tag ∉ tagsInUse s.queue → ∀ i ∈ cancelRows tag,
    exec i s = .next { s with out := s.out ++ [.reply (.accepted tag)] }

/-- R172: between two steps that are not RESET, every tag handed out by DISPATCH is either still in the queue or completed, and
no tag completes without leaving the queue: tags completed and tags queued together grow by exactly the tags DISPATCH hands out. -/
def Obligations.CompletionsAccountForEveryTag : Prop :=
  ∀ (i : Instr) (s t : State), i ≠ .evReset → exec i s = .next t →
    (t.compl.map (·.tag) ++ tagsInUse t.queue).Perm (s.compl.map (·.tag) ++ tagsInUse s.queue ++ acceptedBy i s t)

/-- R140, R160, R173: what a step transmits is a sequence of ACK bytes, NAK bytes and whole requests of queue entries, in any state;
and from a state whose buffer is incomplete it is at most one ACK or NAK and then at most one request, that of the entry which is the
head after the step: only the head is ever transmitted. -/
def Obligations.TransmissionsAreAcksNaksAndRequests : Prop :=
  ∀ (i : Instr) (s t : State), exec i s = .next t →
    (∃ chunks : List (List Byte), t.tx = s.tx ++ chunks.flatten ∧
      ∀ c ∈ chunks, c = [0x06#8] ∨ c = [0x15#8] ∨ ∃ e ∈ s.queue ++ t.queue, c = requestBytes e) ∧
    (incompleteBuffer s.rxbuf → ∃ control request : List Byte, t.tx = s.tx ++ control ++ request ∧
      (control = [] ∨ control = [0x06#8] ∨ control = [0x15#8]) ∧
      (request = [] ∨ ∃ e q, t.queue = e :: q ∧ request = requestBytes e))

/-! ## Timers -/

/-- R190: TICK does nothing with an empty queue, and otherwise counts down the counter of the head's phase where that does not
expire. -/
def Obligations.TickCountsDown : Prop :=
  ∀ s : State,
    (s.queue = [] → exec .evTick s = .next s) ∧
    (s.queue ≠ [] → s.htArmed = false → 2 ≤ s.rtCount → exec .evTick s = .next { s with rtCount := s.rtCount - 1 }) ∧
    (s.queue ≠ [] → s.htArmed = true → 2 ≤ s.htCount → exec .evTick s = .next { s with htCount := s.htCount - 1 })

/-- R192: an expiry with retries remaining transmits the identical request, logs its ordinal and restarts the period. -/
def Obligations.ExpiryRetransmits : Prop :=
  ∀ (s : State) (e : Entry) (q : List Entry), s.queue = e :: q → s.htArmed = false → s.rtCount = 1 → 1 ≤ s.retriesLeft →
    exec .evTick s = .next { s with
      rtCount := s.cfg.retryInterval, retriesLeft := s.retriesLeft - 1,
      out := s.out ++ [.tx (requestBytes e), .log (.retransmit e.tag (s.cfg.retryCount - (s.retriesLeft - 1)))] }

/-- R193: the first expiry with no retries left arms the hard timeout once; the periodic timer does not restart. -/
def Obligations.ExhaustionArmsHardTimeout : Prop :=
  ∀ (s : State) (e : Entry) (q : List Entry), s.queue = e :: q → s.htArmed = false → s.rtCount = 1 → s.retriesLeft = 0 →
    exec .evTick s = .next { s with
      rtCount := 0, htArmed := true, htCount := s.cfg.hardTimeout, out := s.out ++ [.log (.retryExhausted e.tag)] }

/-- R194: the hard timeout cancels the head, and the next head starts. -/
def Obligations.HardTimeoutCancelsHead : Prop :=
  ∀ (s : State) (e : Entry) (q : List Entry), s.queue = e :: q → s.htArmed = true → s.htCount = 1 →
    exec .evTick s = .next (headLeft s q [.log (.hardTimeout e.tag), .compl ⟨e.tag, .cancelled, []⟩])

/-- R195: the no-reply timeline of a head that was just started, tick by tick. -/
def Obligations.NoReplyTimeline : Prop :=
  ∀ (s : State) (e : Entry) (q : List Entry), s.cfg.valid = true → s.queue = e :: q → s.htArmed = false →
    s.rtCount = s.cfg.retryInterval → s.retriesLeft = s.cfg.retryCount →
    (∀ n < (s.cfg.retryCount + 1) * s.cfg.retryInterval, ∃ t, runEvents (expand (.wait n)) s = .next t ∧
      t.queue = s.queue ∧ t.out = s.out ++ retransmissions e (n / s.cfg.retryInterval)) ∧
    (∀ n, (s.cfg.retryCount + 1) * s.cfg.retryInterval ≤ n →
      n < (s.cfg.retryCount + 1) * s.cfg.retryInterval + s.cfg.hardTimeout →
      ∃ t, runEvents (expand (.wait n)) s = .next t ∧ t.queue = s.queue ∧ t.htArmed = true ∧
        t.out = s.out ++ retransmissions e s.cfg.retryCount ++ [.log (.retryExhausted e.tag)]) ∧
    (∃ t, runEvents (expand (.wait ((s.cfg.retryCount + 1) * s.cfg.retryInterval + s.cfg.hardTimeout))) s = .next t ∧
      t.queue = q ∧
      t.out = s.out ++ retransmissions e s.cfg.retryCount ++ [.log (.retryExhausted e.tag), .log (.hardTimeout e.tag),
        .compl ⟨e.tag, .cancelled, []⟩] ++ (q.head?.map fun x => Emission.tx (requestBytes x)).toList)

/-- R197: reception that does not settle leaves the head's timer as it is: ACK, NAK, CAN, an unknown header, an invalid or malformed
SOF frame, a valid frame that matches no request, a matching frame that does not settle a multi request, and a byte that completes no
frame. What the KIND rows mean, which present valid frames here beside SOF, is read from the table (DEDUCED, log 10). -/
def Obligations.TimerIsNotResetByReception : Prop :=
  ∀ (s : State) (i : Instr),
    (i = .ack ∨ i = .nak ∨ i = .can ∨ (∃ x, i = .unknownHeader x) ∨ (∃ b, i = .sofMalformedLen01 b) ∨
      (∃ a b, i = .sofMalformedLen2 a b) ∨ (∃ f, i = .sof f ∧ validateChecksum (.sof f) = false) ∨
      (∃ b, i = .evRxByte b ∧ decodeFrame (s.rxbuf ++ [b]) = none) ∨
      (∃ f, PresentsValidSof s.cfg i f ∧ ∀ e q, s.queue = e :: q → f.func ≠ e.func) ∨
      (∃ f e q, PresentsValidSof s.cfg i f ∧ s.queue = e :: q ∧ f.func = e.func ∧ e.multi = true ∧ f.kind ≠ s.cfg.kindReq)) →
    ∃ t, exec i s = .next t ∧ t.rtCount = s.rtCount ∧ t.retriesLeft = s.retriesLeft ∧ t.htArmed = s.htArmed ∧
      t.htCount = s.htCount

/-- R235: in any run without RESET from a good state, the entry at queue position k has completed once
(k + 1) * ((P_RETRY_COUNT + 1) * P_RETRY_INTERVAL + P_HARD_TIMEOUT) TICKs have come, whatever else came between them. -/
def Obligations.BoundedCompletion : Prop :=
  ∀ (is : List Instr) (s t : State) (k : Nat) (e : Entry), GoodState s → s.queue[k]? = some e → .evReset ∉ is →
    runEvents is s = .next t → (k + 1) * completionBound s.cfg ≤ is.count .evTick →
      ∃ c ∈ t.compl.drop s.compl.length, c.tag = e.tag

/-! ## Auxiliary events and reset -/

/-- R210: NOP (EV_NOP, HOST_NOP) skips: nothing changes, and no reply is emitted. -/
def Obligations.NopSkips : Prop :=
  ∀ s : State, exec .evNop s = .next s ∧ exec .hostNop s = .next s

/-- R211: SEQ_NEXT (EV_SEQ_NEXT, HOST_SEQ_NEXT) moves the counter to (seq mod 126) + 1, which is never 0 or 127, and replies it. -/
def Obligations.SeqNextAdvances : Prop :=
  ∀ (s : State), ∀ i ∈ [Instr.evSeqNext, .hostSeqNext],
    exec i s = .next { s with seq := s.seq % 126 + 1, out := s.out ++ [.reply (.seqValue (s.seq % 126 + 1))] } ∧
    1 ≤ s.seq % 126 + 1 ∧ s.seq % 126 + 1 ≤ 126

/-- R212: the k-th SEQ_NEXT from a state with seq = 0 replies ((k - 1) mod 126) + 1. -/
def Obligations.SequenceLaw : Prop :=
  ∀ (s : State) (k : Nat), s.seq = 0 → ∃ t, runEvents (List.replicate k .evSeqNext) s = .next t ∧
    t.reply = s.reply ++ (List.range k).map fun j => .seqValue (j % 126 + 1)

/-- R83: a reserved event or host opcode (EV_RESERVED, HOST_RESERVED) changes nothing but its refusal and its LOG element, in that
order (log 17). -/
def Obligations.ReservedCommandIsRefused : Prop :=
  ∀ (s : State) (op : Byte),
    exec .evReserved s = .next { s with out := s.out ++ [.reply (.refused .opcode), .log (.reservedCommand 0x07#8)] } ∧
    exec (.hostReserved op) s = .next { s with out := s.out ++ [.reply (.refused .opcode), .log (.reservedCommand op)] }

/-- R250, R251, R37: RESET puts the engine in the power-on state but for the traces, which are kept, and emits nothing. That the
host's read positions and the offered inputs are kept too is the model's choice (log 19). -/
def Obligations.ResetAppliesTheTable : Prop :=
  ∀ s : State,
    exec .evReset s = .next
      { s with queue := [], rtCount := 0, retriesLeft := 0, htArmed := false, htCount := 0, rxbuf := [], nextTag := 0, seq := 0 } ∧
    exec .evReset s = .next
      { State.powerOn s.cfg with out := s.out, consumed := s.consumed, offered := s.offered } ∧
    (State.powerOn s.cfg).out = []

/-! ## Whole-machine rules -/

/-- R220, R31, R20: the engine never traps: every instruction in every state completes, removes or rewrites no trace element,
and leaves the parameters alone. That a DISPATCH which R161 gives no step, with a full queue, completes by staying offered (log 5),
and that the host's read positions are counters no instruction moves (log 13), is the model's choice. -/
def Obligations.EveryInstructionCompletes : Prop :=
  ∀ (i : Instr) (s : State), ∃ t, exec i s = .next t ∧ tracesGrow s t ∧ t.cfg = s.cfg ∧ t.consumed = s.consumed

/-- R24 to R33: who writes what. The sequence counter changes by SEQ_NEXT and RESET only, next_tag by DISPATCH and RESET, the
buffer by RX_BYTE and RESET; the queue and the timer fields by DISPATCH, CANCEL, reception of an SOF frame, RX_BYTE, TICK and RESET;
and the timer of a busy engine, unless by TICK and RESET, only in a step that completes a request. That only a DISPATCH can stay
offered speaks of the model's own field (log 4, log 5). -/
def Obligations.OnlyItsEventsWriteEachElement : Prop :=
  ∀ (i : Instr) (s t : State), exec i s = .next t →
    (i ∉ [Instr.evSeqNext, .hostSeqNext, .evReset] → t.seq = s.seq) ∧
    (¬ isDispatch i → i ≠ .evReset → t.nextTag = s.nextTag) ∧
    ((∀ b, i ≠ .evRxByte b) → i ≠ .evReset → t.rxbuf = s.rxbuf) ∧
    (¬ writesQueue i → t.queue = s.queue ∧ sameTimer s t) ∧
    (i ≠ .evTick → i ≠ .evReset → s.queue ≠ [] → t.compl = s.compl → sameTimer s t) ∧
    (¬ isDispatch i → t.offered = s.offered)

/-- R34, with the ranges of R24 to R33: every step from a good state leads to a good state. -/
def Obligations.StepKeepsInvariants : Prop :=
  ∀ (s t : State), GoodState s → step s = .next t → GoodState t

/-- R37: the reset table satisfies the invariants, for every valid Cfg, State.reset's among them. -/
def Obligations.PowerOnMeetsInvariants : Prop :=
  (∀ c : Cfg, c.valid = true → GoodState (State.powerOn c)) ∧ GoodState State.reset

/-- R225: an element that the host has not yet consumed makes its trace available. An instruction that appends to a trace leaves it
available, no instruction and no consumption of another trace makes an available trace unavailable, and consuming takes one element,
so that as many consumptions as there are elements clear the indication. That the host's read positions are counters, which stay
within the traces, is the model's choice (log 13). -/
def Obligations.AvailableUntilConsumed : Prop :=
  (∀ (i : Instr) (s t : State) (tr : Trace), consumedWithin s → exec i s = .next t →
    traceLength tr s < traceLength tr t → available tr t = true) ∧
  (∀ (i : Instr) (s t : State) (tr : Trace), exec i s = .next t → available tr s = true → available tr t = true) ∧
  (∀ (s : State) (tr tr' : Trace), tr' ≠ tr → available tr' (s.consume tr) = available tr' s) ∧
  (∀ (s : State) (tr : Trace), available tr s = true → consumedOf tr (s.consume tr) = consumedOf tr s + 1 ∧
    traceLength tr (s.consume tr) = traceLength tr s) ∧
  (∀ (i : Instr) (s t : State), consumedWithin s → exec i s = .next t → consumedWithin t) ∧
  (∀ (s : State) (tr : Trace), consumedWithin s → consumedWithin (s.consume tr)) ∧
  (∀ (s : State) (tr : Trace), consumedWithin s → available tr ((fun x => x.consume tr)^[traceLength tr s] s) = false)

/-- R223: the byte form of a completion is its tag, its status code (0x00 SUCCESS, 0x01 CANCELLED) and its count of frames, and then
the frames' bytes, which are self-delimiting: they are read back from it, in order. That a count above 255 is sent as its low byte is
the model's choice (log 14). -/
def Obligations.CompletionBytesReadBack : Prop :=
  (∀ (tag : Byte) (frames : List Sof),
    (complBytes ⟨tag, .success, frames⟩).take 3 = [tag, 0x00#8, BitVec.ofNat 8 frames.length] ∧
    (complBytes ⟨tag, .cancelled, frames⟩).take 3 = [tag, 0x01#8, BitVec.ofNat 8 frames.length]) ∧
  (∀ c : Completion, (∀ f ∈ c.frames, f.payload.length ≤ 252 ∧ validateChecksum (.sof f) = true) →
    extractFrames ((complBytes c).drop 3) = (c.frames.map .sof, []))

/-- R228: the clocked order holds exactly the events offered in the cycle, sorted by the fixed order RESET, RX_BYTE, CANCEL, DISPATCH,
TICK, SEQ_NEXT, NOP, written out here. That what R228 does not rank comes after all of them, and that events of one rank keep the
order in which they were offered, is the model's choice (log 18). -/
def Obligations.ClockedOrderSortsTheCycle : Prop :=
  (clockRank .evReset = 0 ∧ (∀ b, clockRank (.evRxByte b) = 1) ∧ (∀ tag, ∀ i ∈ cancelRows tag, clockRank i = 2) ∧
    (∀ kind func payload, ∀ i ∈ dispatchRows kind func payload, clockRank i = 3) ∧ clockRank .evTick = 4 ∧
    (∀ i ∈ [Instr.evSeqNext, .hostSeqNext], clockRank i = 5) ∧ (∀ i ∈ [Instr.evNop, .hostNop], clockRank i = 6)) ∧
  (∀ i, (i = .evReserved ∨ (∃ op, i = .hostReserved op) ∨ (encode Cfg.default i).port ∈ [Port.wire, .kind, .codec]) →
    6 < clockRank i) ∧
  ∀ is : List Instr, (clockedOrder is).Perm is ∧ (clockedOrder is).Pairwise (fun a b => clockRank a ≤ clockRank b) ∧
    ∀ r, (clockedOrder is).filter (fun i => clockRank i == r) = is.filter (fun i => clockRank i == r)

/-! ## The step -/

/-- R2, R57: one step executes one instruction whole: the one the first offered input decodes to, in the state from which that
instruction's bytes have been taken, where it has a step (it is no DISPATCH, or the queue has room). R59 and R228 leave open which of
the offered inputs comes next: that it is the first, and that the rest of its bytes stays offered in its place, is the model's choice
(DESIGN CHOICE, log 4). -/
def Obligations.StepRunsTheDecodedInstruction : Prop :=
  ∀ (s : State) (inp : Input) (later : List Input) (i : Instr) (rest : List Byte), s.cfg.valid = true →
    s.offered = inp :: later → decode s.cfg inp.port inp.bytes = .instr i rest →
    (isDispatch i → s.queue.length < s.cfg.queueDepth) →
      step s = exec i { s with offered := (if rest = [] then [] else [⟨inp.port, rest⟩]) ++ later }

/-- With a full queue, in which R161 and R255 give a DISPATCH no step, the held DISPATCHes stay offered in their places and the first
other instruction behind them runs. Whether that stands in an input of its own or in the input of a held DISPATCH, behind it, does not
matter: step does the same as with the two offered apart, or holds its state in both cases. That what comes in behind a held DISPATCH
passes it, also at the same host port and within the same input, is the model's choice (log 5, log 25), and so is that inputs are
taken in the order offered (log 4). -/
def Obligations.StepPassesHeldDispatches : Prop :=
  (∀ (s : State) (held later : List Input) (inp : Input) (i : Instr) (rest : List Byte), s.cfg.valid = true →
    s.cfg.queueDepth ≤ s.queue.length → s.offered = held ++ inp :: later →
    (∀ x ∈ held, ∃ j, decode s.cfg x.port x.bytes = .instr j [] ∧ isDispatch j) →
    decode s.cfg inp.port inp.bytes = .instr i rest → ¬ isDispatch i →
      step s = exec i { s with offered := held ++ ((if rest = [] then [] else [⟨inp.port, rest⟩]) ++ later) }) ∧
  (∀ (s s' : State) (held later : List Input) (p : Port) (a rest : List Byte) (i : Instr), s.cfg.valid = true →
    s.cfg.queueDepth ≤ s.queue.length → s.offered = held ++ ⟨p, a ++ rest⟩ :: later →
    (∀ x ∈ held, ∃ j, decode s.cfg x.port x.bytes = .instr j [] ∧ isDispatch j) →
    decode s.cfg p (a ++ rest) = .instr i rest → isDispatch i → rest ≠ [] →
    s' = { s with offered := held ++ ⟨p, a⟩ :: ⟨p, rest⟩ :: later } →
      step s = step s' ∨ (step s = .next s ∧ step s' = .next s'))

/-- R238, R161: with nothing offered, or nothing but held DISPATCHes, the engine holds its state. That a held DISPATCH stays offered
is how the model holds it (log 5). -/
def Obligations.StepHoldsWhenNothingCanRun : Prop :=
  ∀ s : State, s.cfg.valid = true →
    (s.offered = [] → step s = .next s) ∧
    (s.cfg.queueDepth ≤ s.queue.length → (∀ x ∈ s.offered, OnlyDispatches s.cfg x.port x.bytes) → step s = .next s)

/-- The bytes of an incomplete command are completed by the next input at the same port, and the command they make then runs
(R81; the model's choice of log 6, and of log 4 for taking the first offered input). -/
def Obligations.IncompleteCommandIsContinued : Prop :=
  ∀ (s : State) (p : Port) (a b : List Byte) (later : List Input) (i : Instr) (rest : List Byte), s.cfg.valid = true →
    s.offered = ⟨p, a⟩ :: ⟨p, b⟩ :: later → decode s.cfg p a = .incomplete → decode s.cfg p (a ++ b) = .instr i rest →
    (isDispatch i → s.queue.length < s.cfg.queueDepth) →
      step s = exec i { s with offered := (if rest = [] then [] else [⟨p, rest⟩]) ++ later }

/-- The two stops of step, both the model's choice: parameters that break R252 (log 16), and an input no port can carry
(log 22), where it is the next to be taken (log 4). With parameters that meet R252, step never faults, and it refuses only for bytes that stand together at one port, in one
input or in several, and that no port can carry. -/
def Obligations.StepStopsOnlyOutsideTheRules : Prop :=
  (∀ s : State, s.cfg.valid = false → step s = .fault .cfgInvalid) ∧
  (∀ (s : State) (inp : Input) (later : List Input) (e : DecodeError), s.cfg.valid = true → s.offered = inp :: later →
    decode s.cfg inp.port inp.bytes = .invalid e → step s = .refused (.undecodable e)) ∧
  (∀ s : State, s.cfg.valid = true → (∃ t, step s = .next t) ∨
    ∃ (p : Port) (bs : List Byte) (e : DecodeError), bs <:+: streamAt p s.offered ∧ decode s.cfg p bs = .invalid e ∧
      step s = .refused (.undecodable e))

/-! ## Byte forms of the outputs -/

/-- R82, R222: the byte forms of every REPLY and LOG element. That a retry ordinal above 255 is sent as its low byte is the model's
choice (log 14). -/
def Obligations.OutputByteForms : Prop :=
  (∀ tag, replyBytes (.accepted tag) = [0x00#8, tag]) ∧ replyBytes (.refused .length) = [0x01#8, 0x01#8] ∧
  replyBytes (.refused .opcode) = [0x01#8, 0x02#8] ∧ (∀ v, replyBytes (.seqValue v) = [0x02#8, BitVec.ofNat 8 v]) ∧
  (∀ a b, logBytes (.checksumInvalid a b) = [0x01#8, a, b]) ∧ (∀ a, logBytes (.malformedFrame a) = [0x02#8, a]) ∧
  (∀ a, logBytes (.deliveryAnomaly a) = [0x03#8, a]) ∧ (∀ a, logBytes (.unknownHeader a) = [0x04#8, a]) ∧
  (∀ a n, logBytes (.retransmit a n) = [0x05#8, a, BitVec.ofNat 8 n]) ∧ (∀ a, logBytes (.retryExhausted a) = [0x06#8, a]) ∧
  (∀ a, logBytes (.hardTimeout a) = [0x07#8, a]) ∧ (∀ a, logBytes (.externalCancel a) = [0x08#8, a]) ∧
  (∀ a b, logBytes (.responseOverflow a b) = [0x09#8, a, b]) ∧
  (∀ n, logBytes (.requestTooLong n) = [0x0A#8, BitVec.ofNat 8 n]) ∧ ∀ a, logBytes (.reservedCommand a) = [0x0B#8, a]
end

