-- ==== Sys2Proof/Laws/Codec.lean ====
section
/-! SUPPORT. The codec's laws: the checksum, one lemma per case of DECODE, the loop of EXTRACT. -/

namespace Sys2Proof.Machine

/-! ### xor folds and the checksum -/

@[simp] theorem xorFold_nil : xorFold [] = 0#8 := rfl
@[simp] theorem xorFold_cons (b : Byte) (l : List Byte) : xorFold (b :: l) = b ^^^ xorFold l := rfl

@[simp] theorem xorFold_append (l m : List Byte) : xorFold (l ++ m) = xorFold l ^^^ xorFold m := by
  induction l with
  | nil => simp
  | cons b l ih => simp [ih, BitVec.xor_assoc]

/-- The fold does not depend on the order of the bytes (R101). -/
theorem xorFold_perm {l m : List Byte} (h : l.Perm m) : xorFold l = xorFold m := by
  induction h with
  | nil => rfl
  | cons x _ ih => simp [ih]
  | swap x y l => simp [← BitVec.xor_assoc, BitVec.xor_comm x y]
  | trans _ _ ih1 ih2 => exact ih1.trans ih2

/-! ### lengths -/

@[simp] theorem sofBytes_length (f : Sof) : (sofBytes f).length = f.payload.length + 5 := by
  simp [sofBytes]

@[simp] theorem sofOf_payload (k g : Byte) (p : List Byte) : (sofOf k g p).payload = p := rfl
@[simp] theorem sofOf_kind (k g : Byte) (p : List Byte) : (sofOf k g p).kind = k := rfl
@[simp] theorem sofOf_func (k g : Byte) (p : List Byte) : (sofOf k g p).func = g := rfl
@[simp] theorem sofOf_checksum (k g : Byte) (p : List Byte) : (sofOf k g p).checksum = checksum k g p := rfl

/-- A frame built with its checksum is valid (R108). -/
@[simp] theorem validate_sofOf (k g : Byte) (p : List Byte) : validateChecksum (.sof (sofOf k g p)) = true := by
  simp [validateChecksum]

/-- A valid SOF frame is its fields with the checksum computed. -/
theorem eq_sofOf_of_valid {f : Sof} (h : validateChecksum (.sof f) = true) : f = sofOf f.kind f.func f.payload := by
  cases f; simp_all [validateChecksum, sofOf]

/-- What ENCODE gives for a frame the engine transmits. -/
theorem encodeFrame_sof {f : Sof} (h : f.payload.length ≤ payloadMax) :
    encodeFrame (.sof f) = .bytes (sofBytes (sofOf f.kind f.func f.payload)) := by
  simp [encodeFrame, Nat.not_lt.mpr h]

/-- Moving a xor to the other side. -/
theorem xor_eq_iff (a b c : Byte) : a ^^^ b = c ↔ b = a ^^^ c := by
  constructor <;> rintro rfl <;> simp

/-- The equation of the checksum (R100) and the fold of all covered bytes (R102), over any five bytes. -/
theorem checksum_iff_fold (m a k g d c : Byte) :
    c = m ^^^ a ^^^ k ^^^ g ^^^ d ↔ a ^^^ (k ^^^ (g ^^^ (d ^^^ c))) = m := by
  rw [xor_eq_iff, xor_eq_iff, xor_eq_iff, xor_eq_iff]
  have : m ^^^ a ^^^ k ^^^ g ^^^ d = d ^^^ (g ^^^ (k ^^^ (a ^^^ m))) := by ac_rfl
  rw [this]

/-- An SOF frame is valid exactly when its bytes after the header fold to 0xFF (R102). -/
theorem validate_iff_fold (f : Sof) :
    validateChecksum (.sof f) = true ↔ xorFold ((sofBytes f).drop 1) = 0xFF#8 := by
  have e : xorFold ((sofBytes f).drop 1) = BitVec.ofNat 8 (f.payload.length + 3) ^^^
      (f.kind ^^^ (f.func ^^^ (xorFold f.payload ^^^ f.checksum))) := by
    simp only [sofBytes, List.cons_append, List.nil_append, List.drop_succ_cons, List.drop_zero, xorFold_cons,
      xorFold_append, xorFold_nil, BitVec.xor_zero]
  rw [e, ← checksum_iff_fold, validateChecksum, decide_eq_true_eq, checksum]

/-- Changing one byte of a list changes its fold by the same bits. -/
theorem xorFold_modify (l : List Byte) (i : Nat) (m : Byte) (h : i < l.length) :
    xorFold (l.modify i (· ^^^ m)) = xorFold l ^^^ m := by
  induction l generalizing i with
  | nil => simp at h
  | cons b l ih =>
    cases i with
    | zero => simp [List.modify_zero_cons, BitVec.xor_assoc, BitVec.xor_comm]
    | succ i =>
      simp only [List.length_cons, Nat.add_lt_add_iff_right] at h
      simp [List.modify_succ_cons, ih i h, BitVec.xor_assoc]

/-! ### DECODE -/

/-- A header other than SOF is a frame of one byte. -/
theorem decodeFrame_ctrl (h : Byte) (r : List Byte) (hh : h ≠ 0x01#8) : decodeFrame (h :: r) = some (ctrlFrame h, 1) := by
  simp [decodeFrame, hh]

/-- DECODE of a buffer that starts with an SOF header and a length byte. -/
theorem decodeFrame_sof (len : Byte) (r : List Byte) :
    decodeFrame (0x01#8 :: len :: r) =
      if r.length < len.toNat then none
      else if len.toNat < 3 then some (.malformed len (0x01#8 :: len :: r.take len.toNat), len.toNat + 2)
      else some (.sof { kind := r.getD 0 0#8, func := r.getD 1 0#8, payload := (r.drop 2).take (len.toNat - 3),
                        checksum := r.getD (len.toNat - 1) 0#8 }, len.toNat + 2) := by
  by_cases h1 : r.length < len.toNat
  · simp [decodeFrame, h1]
  · by_cases h2 : len.toNat < 3
    · simp [decodeFrame, h1, h2]
    · obtain ⟨n, hn⟩ : ∃ n, len.toNat = n + 3 := ⟨len.toNat - 3, by omega⟩
      have e : (len :: r)[len.toNat]? = r[len.toNat - 1]? := by
        rw [hn]; simp
      simp [decodeFrame, h1, h2, e]

@[simp] theorem decodeFrame_nil : decodeFrame [] = none := rfl
@[simp] theorem decodeFrame_one : decodeFrame [0x01#8] = none := rfl

/-- Every case of DECODE (R106): nothing yet, an SOF prefix, or a frame that takes at least one byte and no more than there are. -/
theorem decodeFrame_cases (b : List Byte) :
    (decodeFrame b = none ∧ incompleteBuffer b) ∨
    (∃ f n, decodeFrame b = some (f, n) ∧ 1 ≤ n ∧ n ≤ b.length) := by
  match b with
  | [] => exact .inl ⟨rfl, .inl rfl⟩
  | h :: r =>
    by_cases hh : h = 0x01#8
    · subst hh
      match r with
      | [] => exact .inl ⟨rfl, .inr ⟨rfl, .inl rfl⟩⟩
      | len :: r =>
        rw [decodeFrame_sof]
        by_cases h1 : r.length < len.toNat
        · simp [h1, incompleteBuffer]
        · right
          by_cases h2 : len.toNat < 3
          · simp [h1, h2]; omega
          · simp [h1, h2]; omega
    · exact .inr ⟨_, _, decodeFrame_ctrl h r hh, le_refl _, by simp⟩

/-- A buffer holds no whole frame exactly when DECODE is Incomplete (R34 I7). -/
theorem decodeFrame_none_iff (b : List Byte) : decodeFrame b = none ↔ incompleteBuffer b := by
  constructor
  · intro h
    obtain ⟨_, h'⟩ | ⟨f, n, h', _⟩ := decodeFrame_cases b
    · exact h'
    · simp [h] at h'
  · rintro (rfl | ⟨h1, h2⟩)
    · rfl
    · match b with
      | [] => rfl
      | [x] => simp at h1; subst h1; rfl
      | x :: len :: r =>
        simp at h1 h2; subst h1
        rw [decodeFrame_sof, if_pos h2]

/-- Bytes behind a whole frame are not examined (R110). -/
theorem decodeFrame_append {b : List Byte} {f : Frame} {n : Nat} (c : List Byte) (h : decodeFrame b = some (f, n)) :
    decodeFrame (b ++ c) = some (f, n) := by
  match b with
  | [] => simp at h
  | x :: r =>
    by_cases hx : x = 0x01#8
    · subst hx
      match r with
      | [] => simp at h
      | len :: r =>
        rw [decodeFrame_sof] at h
        rw [List.cons_append, List.cons_append, decodeFrame_sof]
        by_cases h1 : r.length < len.toNat
        · simp [h1] at h
        · have h1' : ¬ (r ++ c).length < len.toNat := by simp; omega
          rw [if_neg h1] at h
          rw [if_neg h1', ← h]
          by_cases h2 : len.toNat < 3
          · simp [h2, List.take_append_of_le_length (show len.toNat ≤ r.length by omega)]
          · have e1 : (r ++ c).getD 0 0#8 = r.getD 0 0#8 := List.getD_append _ _ _ _ (by omega)
            have e2 : (r ++ c).getD 1 0#8 = r.getD 1 0#8 := List.getD_append _ _ _ _ (by omega)
            have e3 : (r ++ c).getD (len.toNat - 1) 0#8 = r.getD (len.toNat - 1) 0#8 := List.getD_append _ _ _ _ (by omega)
            have e4 : ((r ++ c).drop 2).take (len.toNat - 3) = (r.drop 2).take (len.toNat - 3) := by
              rw [List.drop_append_of_le_length (by omega), List.take_append_of_le_length (by simp; omega)]
            simp only [h2, if_false, e1, e2, e3, e4]
    · rw [decodeFrame_ctrl x r hx] at h
      rw [List.cons_append, decodeFrame_ctrl x _ hx, h]

/-- DECODE gives back an SOF frame from its bytes in field order. -/
theorem decodeFrame_sofBytes (f : Sof) (r : List Byte) (h : f.payload.length ≤ payloadMax) :
    decodeFrame (sofBytes f ++ r) = some (.sof f, f.payload.length + 5) := by
  have hl : (BitVec.ofNat 8 (f.payload.length + 3)).toNat = f.payload.length + 3 := by
    simp [payloadMax] at *; omega
  have : sofBytes f ++ r = 0x01#8 :: BitVec.ofNat 8 (f.payload.length + 3) ::
      (f.kind :: f.func :: (f.payload ++ (f.checksum :: r))) := by simp [sofBytes]
  rw [this, decodeFrame_sof, hl]
  rw [if_neg (by simp), if_neg (by omega)]
  have e : (f.kind :: f.func :: (f.payload ++ (f.checksum :: r))).getD (f.payload.length + 3 - 1) 0#8 = f.checksum := by
    rw [show f.payload.length + 3 - 1 = f.payload.length + 1 + 1 by omega]
    simp
  rw [e]
  simp

/-- The bytes of a decoded SOF frame are the bytes it was decoded from. -/
theorem decodeFrame_take {b : List Byte} {f : Sof} {n : Nat} (h : decodeFrame b = some (.sof f, n)) :
    sofBytes f = b.take n ∧ f.payload.length ≤ payloadMax := by
  match b with
  | [] => simp at h
  | x :: r =>
    by_cases hx : x = 0x01#8
    · subst hx
      match r with
      | [] => simp at h
      | len :: r =>
        rw [decodeFrame_sof] at h
        by_cases h1 : r.length < len.toNat
        · simp [h1] at h
        · by_cases h2 : len.toNat < 3
          · simp [h1, h2] at h
          · simp only [h1, h2, if_false, Option.some.injEq, Prod.mk.injEq, Frame.sof.injEq] at h
            obtain ⟨rfl, rfl⟩ := h
            have hlt := len.isLt
            match r with
            | [] => simp at h1; omega
            | [a] => simp at h1; omega
            | a :: c :: p =>
              simp at h1
              have hp : ((p.take (len.toNat - 3))).length = len.toNat - 3 := by simp; omega
              refine ⟨?_, by simp [payloadMax]; omega⟩
              simp only [sofBytes, List.drop_succ_cons, List.drop_zero, hp]
              have e1 : BitVec.ofNat 8 (len.toNat - 3 + 3) = len := by
                rw [show len.toNat - 3 + 3 = len.toNat by omega]; simp
              obtain ⟨k, hk⟩ : ∃ k, len.toNat = k + 3 := ⟨len.toNat - 3, by omega⟩
              have e2 : (a :: c :: p).getD (len.toNat - 1) 0#8 = p.getD k 0#8 := by
                rw [hk, show k + 3 - 1 = k + 1 + 1 by omega]; simp
              rw [e1, e2, show len.toNat + 2 = k + 1 + 1 + 1 + 1 + 1 by omega,
                show len.toNat - 3 = k by omega]
              have hk' : k < p.length := by omega
              have e3 : p.take (k + 1) = p.take k ++ [p.getD k 0#8] := by
                rw [List.take_succ_eq_append_getElem hk', List.getD_eq_getElem _ _ hk']
              simp only [List.take_succ_cons, e3, List.cons_append, List.nil_append]
              rfl
    · rw [decodeFrame_ctrl x r hx] at h
      exfalso; revert h; unfold ctrlFrame; split_ifs <;> simp

/-! ### EXTRACT -/

/-- The loop needs no more fuel than the buffer has bytes. -/
theorem extractLoop_fuel (b : List Byte) (n m : Nat) (hn : b.length ≤ n) (hm : b.length ≤ m) :
    extractLoop n b = extractLoop m b := by
  induction n generalizing b m with
  | zero =>
    have : b = [] := by simpa using hn
    subst this
    cases m <;> simp [extractLoop]
  | succ n ih =>
    cases m with
    | zero =>
      have : b = [] := by simpa using hm
      subst this
      simp [extractLoop]
    | succ m =>
      obtain ⟨h, _⟩ | ⟨f, k, h, hk1, hk2⟩ := decodeFrame_cases b
      · simp [extractLoop, h]
      · simp only [extractLoop, h]
        rw [ih (b.drop k) m (by simp; omega) (by simp; omega)]

/-- EXTRACT of a buffer with no whole frame (R107). -/
theorem extractFrames_none {b : List Byte} (h : decodeFrame b = none) : extractFrames b = ([], b) := by
  unfold extractFrames
  cases b with
  | nil => rfl
  | cons x r => simp [extractLoop, h]

/-- EXTRACT of a buffer with a whole frame at its front (R107). -/
theorem extractFrames_some {b : List Byte} {f : Frame} {n : Nat} (h : decodeFrame b = some (f, n)) :
    extractFrames b = (f :: (extractFrames (b.drop n)).1, (extractFrames (b.drop n)).2) := by
  obtain ⟨h', _⟩ | ⟨f', n', h', hn1, hn2⟩ := decodeFrame_cases b
  · simp [h] at h'
  · obtain ⟨rfl, rfl⟩ : f = f' ∧ n = n' := by simpa [h] using h'
    unfold extractFrames
    obtain ⟨k, hk⟩ : ∃ k, b.length = k + 1 := ⟨b.length - 1, by omega⟩
    rw [hk]
    simp only [extractLoop, h]
    rw [extractLoop_fuel (b.drop n) k (b.drop n).length (by simp; omega) le_rfl]

/-- Induction over the frames at the front of a buffer. -/
theorem buffer_induction {P : List Byte → Prop} (none_case : ∀ b, decodeFrame b = none → P b)
    (some_case : ∀ b f n, decodeFrame b = some (f, n) → P (b.drop n) → P b) (b : List Byte) : P b := by
  induction hl : b.length using Nat.strong_induction_on generalizing b with
  | _ l ih =>
    obtain ⟨h, _⟩ | ⟨f, n, h, h1, h2⟩ := decodeFrame_cases b
    · exact none_case b h
    · exact some_case b f n h (ih (b.drop n).length (by simp; omega) _ rfl)

/-- The remainder holds no whole frame (R107, R34 I7). -/
theorem extractFrames_remainder (b : List Byte) : incompleteBuffer (extractFrames b).2 := by
  induction b using buffer_induction with
  | none_case b h => rw [extractFrames_none h]; exact (decodeFrame_none_iff b).mp h
  | some_case b f n h ih => rw [extractFrames_some h]; exact ih

/-- More bytes behind the buffer continue the extraction from its remainder (R65). -/
theorem extractFrames_append (b c : List Byte) :
    extractFrames (b ++ c) =
      ((extractFrames b).1 ++ (extractFrames ((extractFrames b).2 ++ c)).1, (extractFrames ((extractFrames b).2 ++ c)).2) := by
  induction b using buffer_induction with
  | none_case b h => simp [extractFrames_none h]
  | some_case b f n h ih =>
    have hn : n ≤ b.length := by
      obtain ⟨h', _⟩ | ⟨f', n', h', hn1, hn2⟩ := decodeFrame_cases b
      · simp [h] at h'
      · simp [h] at h'; omega
    rw [extractFrames_some h, extractFrames_some (decodeFrame_append c h), List.drop_append_of_le_length hn, ih]
    simp

end Sys2Proof.Machine
end

