-- ==== Sys2Proof/Laws/State.lean ====
section
/-! SUPPORT. One lemma per field per state update, true by rfl; the trace views of an emission; two updates of one field; and
the updates that do not meet. -/

namespace Sys2Proof.Machine

variable (s : State)

/-! ### emit -/

@[simp] theorem emit_cfg (e : Emission) : (s.emit e).cfg = s.cfg := rfl
@[simp] theorem emit_queue (e : Emission) : (s.emit e).queue = s.queue := rfl
@[simp] theorem emit_rtCount (e : Emission) : (s.emit e).rtCount = s.rtCount := rfl
@[simp] theorem emit_retriesLeft (e : Emission) : (s.emit e).retriesLeft = s.retriesLeft := rfl
@[simp] theorem emit_htArmed (e : Emission) : (s.emit e).htArmed = s.htArmed := rfl
@[simp] theorem emit_htCount (e : Emission) : (s.emit e).htCount = s.htCount := rfl
@[simp] theorem emit_rxbuf (e : Emission) : (s.emit e).rxbuf = s.rxbuf := rfl
@[simp] theorem emit_nextTag (e : Emission) : (s.emit e).nextTag = s.nextTag := rfl
@[simp] theorem emit_seq (e : Emission) : (s.emit e).seq = s.seq := rfl
@[simp] theorem emit_out (e : Emission) : (s.emit e).out = s.out ++ [e] := rfl
@[simp] theorem emit_consumed (e : Emission) : (s.emit e).consumed = s.consumed := rfl
@[simp] theorem emit_offered (e : Emission) : (s.emit e).offered = s.offered := rfl

/-! ### setQueue -/

@[simp] theorem setQueue_cfg (q : List Entry) : (s.setQueue q).cfg = s.cfg := rfl
@[simp] theorem setQueue_queue (q : List Entry) : (s.setQueue q).queue = q := rfl
@[simp] theorem setQueue_rtCount (q : List Entry) : (s.setQueue q).rtCount = s.rtCount := rfl
@[simp] theorem setQueue_retriesLeft (q : List Entry) : (s.setQueue q).retriesLeft = s.retriesLeft := rfl
@[simp] theorem setQueue_htArmed (q : List Entry) : (s.setQueue q).htArmed = s.htArmed := rfl
@[simp] theorem setQueue_htCount (q : List Entry) : (s.setQueue q).htCount = s.htCount := rfl
@[simp] theorem setQueue_rxbuf (q : List Entry) : (s.setQueue q).rxbuf = s.rxbuf := rfl
@[simp] theorem setQueue_nextTag (q : List Entry) : (s.setQueue q).nextTag = s.nextTag := rfl
@[simp] theorem setQueue_seq (q : List Entry) : (s.setQueue q).seq = s.seq := rfl
@[simp] theorem setQueue_out (q : List Entry) : (s.setQueue q).out = s.out := rfl
@[simp] theorem setQueue_consumed (q : List Entry) : (s.setQueue q).consumed = s.consumed := rfl
@[simp] theorem setQueue_offered (q : List Entry) : (s.setQueue q).offered = s.offered := rfl

/-! ### setTimer -/

@[simp] theorem setTimer_cfg (rt retries : Nat) (armed : Bool) (ht : Nat) : (s.setTimer rt retries armed ht).cfg = s.cfg := rfl
@[simp] theorem setTimer_queue (rt retries : Nat) (armed : Bool) (ht : Nat) : (s.setTimer rt retries armed ht).queue = s.queue := rfl
@[simp] theorem setTimer_rtCount (rt retries : Nat) (armed : Bool) (ht : Nat) : (s.setTimer rt retries armed ht).rtCount = rt := rfl
@[simp] theorem setTimer_retriesLeft (rt retries : Nat) (armed : Bool) (ht : Nat) : (s.setTimer rt retries armed ht).retriesLeft = retries := rfl
@[simp] theorem setTimer_htArmed (rt retries : Nat) (armed : Bool) (ht : Nat) : (s.setTimer rt retries armed ht).htArmed = armed := rfl
@[simp] theorem setTimer_htCount (rt retries : Nat) (armed : Bool) (ht : Nat) : (s.setTimer rt retries armed ht).htCount = ht := rfl
@[simp] theorem setTimer_rxbuf (rt retries : Nat) (armed : Bool) (ht : Nat) : (s.setTimer rt retries armed ht).rxbuf = s.rxbuf := rfl
@[simp] theorem setTimer_nextTag (rt retries : Nat) (armed : Bool) (ht : Nat) : (s.setTimer rt retries armed ht).nextTag = s.nextTag := rfl
@[simp] theorem setTimer_seq (rt retries : Nat) (armed : Bool) (ht : Nat) : (s.setTimer rt retries armed ht).seq = s.seq := rfl
@[simp] theorem setTimer_out (rt retries : Nat) (armed : Bool) (ht : Nat) : (s.setTimer rt retries armed ht).out = s.out := rfl
@[simp] theorem setTimer_consumed (rt retries : Nat) (armed : Bool) (ht : Nat) : (s.setTimer rt retries armed ht).consumed = s.consumed := rfl
@[simp] theorem setTimer_offered (rt retries : Nat) (armed : Bool) (ht : Nat) : (s.setTimer rt retries armed ht).offered = s.offered := rfl

/-! ### setRxbuf -/

@[simp] theorem setRxbuf_cfg (b : List Byte) : (s.setRxbuf b).cfg = s.cfg := rfl
@[simp] theorem setRxbuf_queue (b : List Byte) : (s.setRxbuf b).queue = s.queue := rfl
@[simp] theorem setRxbuf_rtCount (b : List Byte) : (s.setRxbuf b).rtCount = s.rtCount := rfl
@[simp] theorem setRxbuf_retriesLeft (b : List Byte) : (s.setRxbuf b).retriesLeft = s.retriesLeft := rfl
@[simp] theorem setRxbuf_htArmed (b : List Byte) : (s.setRxbuf b).htArmed = s.htArmed := rfl
@[simp] theorem setRxbuf_htCount (b : List Byte) : (s.setRxbuf b).htCount = s.htCount := rfl
@[simp] theorem setRxbuf_rxbuf (b : List Byte) : (s.setRxbuf b).rxbuf = b := rfl
@[simp] theorem setRxbuf_nextTag (b : List Byte) : (s.setRxbuf b).nextTag = s.nextTag := rfl
@[simp] theorem setRxbuf_seq (b : List Byte) : (s.setRxbuf b).seq = s.seq := rfl
@[simp] theorem setRxbuf_out (b : List Byte) : (s.setRxbuf b).out = s.out := rfl
@[simp] theorem setRxbuf_consumed (b : List Byte) : (s.setRxbuf b).consumed = s.consumed := rfl
@[simp] theorem setRxbuf_offered (b : List Byte) : (s.setRxbuf b).offered = s.offered := rfl

/-! ### setNextTag -/

@[simp] theorem setNextTag_cfg (n : Nat) : (s.setNextTag n).cfg = s.cfg := rfl
@[simp] theorem setNextTag_queue (n : Nat) : (s.setNextTag n).queue = s.queue := rfl
@[simp] theorem setNextTag_rtCount (n : Nat) : (s.setNextTag n).rtCount = s.rtCount := rfl
@[simp] theorem setNextTag_retriesLeft (n : Nat) : (s.setNextTag n).retriesLeft = s.retriesLeft := rfl
@[simp] theorem setNextTag_htArmed (n : Nat) : (s.setNextTag n).htArmed = s.htArmed := rfl
@[simp] theorem setNextTag_htCount (n : Nat) : (s.setNextTag n).htCount = s.htCount := rfl
@[simp] theorem setNextTag_rxbuf (n : Nat) : (s.setNextTag n).rxbuf = s.rxbuf := rfl
@[simp] theorem setNextTag_nextTag (n : Nat) : (s.setNextTag n).nextTag = n := rfl
@[simp] theorem setNextTag_seq (n : Nat) : (s.setNextTag n).seq = s.seq := rfl
@[simp] theorem setNextTag_out (n : Nat) : (s.setNextTag n).out = s.out := rfl
@[simp] theorem setNextTag_consumed (n : Nat) : (s.setNextTag n).consumed = s.consumed := rfl
@[simp] theorem setNextTag_offered (n : Nat) : (s.setNextTag n).offered = s.offered := rfl

/-! ### setSeq -/

@[simp] theorem setSeq_cfg (v : Nat) : (s.setSeq v).cfg = s.cfg := rfl
@[simp] theorem setSeq_queue (v : Nat) : (s.setSeq v).queue = s.queue := rfl
@[simp] theorem setSeq_rtCount (v : Nat) : (s.setSeq v).rtCount = s.rtCount := rfl
@[simp] theorem setSeq_retriesLeft (v : Nat) : (s.setSeq v).retriesLeft = s.retriesLeft := rfl
@[simp] theorem setSeq_htArmed (v : Nat) : (s.setSeq v).htArmed = s.htArmed := rfl
@[simp] theorem setSeq_htCount (v : Nat) : (s.setSeq v).htCount = s.htCount := rfl
@[simp] theorem setSeq_rxbuf (v : Nat) : (s.setSeq v).rxbuf = s.rxbuf := rfl
@[simp] theorem setSeq_nextTag (v : Nat) : (s.setSeq v).nextTag = s.nextTag := rfl
@[simp] theorem setSeq_seq (v : Nat) : (s.setSeq v).seq = v := rfl
@[simp] theorem setSeq_out (v : Nat) : (s.setSeq v).out = s.out := rfl
@[simp] theorem setSeq_consumed (v : Nat) : (s.setSeq v).consumed = s.consumed := rfl
@[simp] theorem setSeq_offered (v : Nat) : (s.setSeq v).offered = s.offered := rfl

/-! ### setOffered -/

@[simp] theorem setOffered_cfg (o : List Input) : (s.setOffered o).cfg = s.cfg := rfl
@[simp] theorem setOffered_queue (o : List Input) : (s.setOffered o).queue = s.queue := rfl
@[simp] theorem setOffered_rtCount (o : List Input) : (s.setOffered o).rtCount = s.rtCount := rfl
@[simp] theorem setOffered_retriesLeft (o : List Input) : (s.setOffered o).retriesLeft = s.retriesLeft := rfl
@[simp] theorem setOffered_htArmed (o : List Input) : (s.setOffered o).htArmed = s.htArmed := rfl
@[simp] theorem setOffered_htCount (o : List Input) : (s.setOffered o).htCount = s.htCount := rfl
@[simp] theorem setOffered_rxbuf (o : List Input) : (s.setOffered o).rxbuf = s.rxbuf := rfl
@[simp] theorem setOffered_nextTag (o : List Input) : (s.setOffered o).nextTag = s.nextTag := rfl
@[simp] theorem setOffered_seq (o : List Input) : (s.setOffered o).seq = s.seq := rfl
@[simp] theorem setOffered_out (o : List Input) : (s.setOffered o).out = s.out := rfl
@[simp] theorem setOffered_consumed (o : List Input) : (s.setOffered o).consumed = s.consumed := rfl
@[simp] theorem setOffered_offered (o : List Input) : (s.setOffered o).offered = o := rfl

/-! ### setConsumed -/

@[simp] theorem setConsumed_cfg (c : Consumed) : (s.setConsumed c).cfg = s.cfg := rfl
@[simp] theorem setConsumed_queue (c : Consumed) : (s.setConsumed c).queue = s.queue := rfl
@[simp] theorem setConsumed_rtCount (c : Consumed) : (s.setConsumed c).rtCount = s.rtCount := rfl
@[simp] theorem setConsumed_retriesLeft (c : Consumed) : (s.setConsumed c).retriesLeft = s.retriesLeft := rfl
@[simp] theorem setConsumed_htArmed (c : Consumed) : (s.setConsumed c).htArmed = s.htArmed := rfl
@[simp] theorem setConsumed_htCount (c : Consumed) : (s.setConsumed c).htCount = s.htCount := rfl
@[simp] theorem setConsumed_rxbuf (c : Consumed) : (s.setConsumed c).rxbuf = s.rxbuf := rfl
@[simp] theorem setConsumed_nextTag (c : Consumed) : (s.setConsumed c).nextTag = s.nextTag := rfl
@[simp] theorem setConsumed_seq (c : Consumed) : (s.setConsumed c).seq = s.seq := rfl
@[simp] theorem setConsumed_out (c : Consumed) : (s.setConsumed c).out = s.out := rfl
@[simp] theorem setConsumed_consumed (c : Consumed) : (s.setConsumed c).consumed = c := rfl
@[simp] theorem setConsumed_offered (c : Consumed) : (s.setConsumed c).offered = s.offered := rfl

/-! ### trace views -/

@[simp] theorem emit_tx_txView (v : List Byte) : (s.emit (.tx v)).tx = s.tx ++ v := by
  simp [State.tx, txOf]
@[simp] theorem emit_compl_txView (v : Completion) : (s.emit (.compl v)).tx = s.tx := by
  simp [State.tx, txOf]
@[simp] theorem emit_unsol_txView (v : Sof) : (s.emit (.unsol v)).tx = s.tx := by
  simp [State.tx, txOf]
@[simp] theorem emit_log_txView (v : LogEvent) : (s.emit (.log v)).tx = s.tx := by
  simp [State.tx, txOf]
@[simp] theorem emit_reply_txView (v : Reply) : (s.emit (.reply v)).tx = s.tx := by
  simp [State.tx, txOf]
@[simp] theorem emit_codec_txView (v : CodecResult) : (s.emit (.codec v)).tx = s.tx := by
  simp [State.tx, txOf]
@[simp] theorem emit_tx_complView (v : List Byte) : (s.emit (.tx v)).compl = s.compl := by
  simp [State.compl, complOf]
@[simp] theorem emit_compl_complView (v : Completion) : (s.emit (.compl v)).compl = s.compl ++ [v] := by
  simp [State.compl, complOf]
@[simp] theorem emit_unsol_complView (v : Sof) : (s.emit (.unsol v)).compl = s.compl := by
  simp [State.compl, complOf]
@[simp] theorem emit_log_complView (v : LogEvent) : (s.emit (.log v)).compl = s.compl := by
  simp [State.compl, complOf]
@[simp] theorem emit_reply_complView (v : Reply) : (s.emit (.reply v)).compl = s.compl := by
  simp [State.compl, complOf]
@[simp] theorem emit_codec_complView (v : CodecResult) : (s.emit (.codec v)).compl = s.compl := by
  simp [State.compl, complOf]
@[simp] theorem emit_tx_unsolView (v : List Byte) : (s.emit (.tx v)).unsol = s.unsol := by
  simp [State.unsol, unsolOf]
@[simp] theorem emit_compl_unsolView (v : Completion) : (s.emit (.compl v)).unsol = s.unsol := by
  simp [State.unsol, unsolOf]
@[simp] theorem emit_unsol_unsolView (v : Sof) : (s.emit (.unsol v)).unsol = s.unsol ++ [v] := by
  simp [State.unsol, unsolOf]
@[simp] theorem emit_log_unsolView (v : LogEvent) : (s.emit (.log v)).unsol = s.unsol := by
  simp [State.unsol, unsolOf]
@[simp] theorem emit_reply_unsolView (v : Reply) : (s.emit (.reply v)).unsol = s.unsol := by
  simp [State.unsol, unsolOf]
@[simp] theorem emit_codec_unsolView (v : CodecResult) : (s.emit (.codec v)).unsol = s.unsol := by
  simp [State.unsol, unsolOf]
@[simp] theorem emit_tx_logView (v : List Byte) : (s.emit (.tx v)).log = s.log := by
  simp [State.log, logOf]
@[simp] theorem emit_compl_logView (v : Completion) : (s.emit (.compl v)).log = s.log := by
  simp [State.log, logOf]
@[simp] theorem emit_unsol_logView (v : Sof) : (s.emit (.unsol v)).log = s.log := by
  simp [State.log, logOf]
@[simp] theorem emit_log_logView (v : LogEvent) : (s.emit (.log v)).log = s.log ++ [v] := by
  simp [State.log, logOf]
@[simp] theorem emit_reply_logView (v : Reply) : (s.emit (.reply v)).log = s.log := by
  simp [State.log, logOf]
@[simp] theorem emit_codec_logView (v : CodecResult) : (s.emit (.codec v)).log = s.log := by
  simp [State.log, logOf]
@[simp] theorem emit_tx_replyView (v : List Byte) : (s.emit (.tx v)).reply = s.reply := by
  simp [State.reply, replyOf]
@[simp] theorem emit_compl_replyView (v : Completion) : (s.emit (.compl v)).reply = s.reply := by
  simp [State.reply, replyOf]
@[simp] theorem emit_unsol_replyView (v : Sof) : (s.emit (.unsol v)).reply = s.reply := by
  simp [State.reply, replyOf]
@[simp] theorem emit_log_replyView (v : LogEvent) : (s.emit (.log v)).reply = s.reply := by
  simp [State.reply, replyOf]
@[simp] theorem emit_reply_replyView (v : Reply) : (s.emit (.reply v)).reply = s.reply ++ [v] := by
  simp [State.reply, replyOf]
@[simp] theorem emit_codec_replyView (v : CodecResult) : (s.emit (.codec v)).reply = s.reply := by
  simp [State.reply, replyOf]
@[simp] theorem emit_tx_codecOutView (v : List Byte) : (s.emit (.tx v)).codecOut = s.codecOut := by
  simp [State.codecOut, codecOf]
@[simp] theorem emit_compl_codecOutView (v : Completion) : (s.emit (.compl v)).codecOut = s.codecOut := by
  simp [State.codecOut, codecOf]
@[simp] theorem emit_unsol_codecOutView (v : Sof) : (s.emit (.unsol v)).codecOut = s.codecOut := by
  simp [State.codecOut, codecOf]
@[simp] theorem emit_log_codecOutView (v : LogEvent) : (s.emit (.log v)).codecOut = s.codecOut := by
  simp [State.codecOut, codecOf]
@[simp] theorem emit_reply_codecOutView (v : Reply) : (s.emit (.reply v)).codecOut = s.codecOut := by
  simp [State.codecOut, codecOf]
@[simp] theorem emit_codec_codecOutView (v : CodecResult) : (s.emit (.codec v)).codecOut = s.codecOut ++ [v] := by
  simp [State.codecOut, codecOf]
@[simp] theorem setQueue_txView (q : List Entry) : (s.setQueue q).tx = s.tx := rfl
@[simp] theorem setTimer_txView (rt retries : Nat) (armed : Bool) (ht : Nat) : (s.setTimer rt retries armed ht).tx = s.tx := rfl
@[simp] theorem setRxbuf_txView (b : List Byte) : (s.setRxbuf b).tx = s.tx := rfl
@[simp] theorem setNextTag_txView (n : Nat) : (s.setNextTag n).tx = s.tx := rfl
@[simp] theorem setSeq_txView (v : Nat) : (s.setSeq v).tx = s.tx := rfl
@[simp] theorem setOffered_txView (o : List Input) : (s.setOffered o).tx = s.tx := rfl
@[simp] theorem setConsumed_txView (c : Consumed) : (s.setConsumed c).tx = s.tx := rfl
@[simp] theorem setQueue_complView (q : List Entry) : (s.setQueue q).compl = s.compl := rfl
@[simp] theorem setTimer_complView (rt retries : Nat) (armed : Bool) (ht : Nat) : (s.setTimer rt retries armed ht).compl = s.compl := rfl
@[simp] theorem setRxbuf_complView (b : List Byte) : (s.setRxbuf b).compl = s.compl := rfl
@[simp] theorem setNextTag_complView (n : Nat) : (s.setNextTag n).compl = s.compl := rfl
@[simp] theorem setSeq_complView (v : Nat) : (s.setSeq v).compl = s.compl := rfl
@[simp] theorem setOffered_complView (o : List Input) : (s.setOffered o).compl = s.compl := rfl
@[simp] theorem setConsumed_complView (c : Consumed) : (s.setConsumed c).compl = s.compl := rfl
@[simp] theorem setQueue_unsolView (q : List Entry) : (s.setQueue q).unsol = s.unsol := rfl
@[simp] theorem setTimer_unsolView (rt retries : Nat) (armed : Bool) (ht : Nat) : (s.setTimer rt retries armed ht).unsol = s.unsol := rfl
@[simp] theorem setRxbuf_unsolView (b : List Byte) : (s.setRxbuf b).unsol = s.unsol := rfl
@[simp] theorem setNextTag_unsolView (n : Nat) : (s.setNextTag n).unsol = s.unsol := rfl
@[simp] theorem setSeq_unsolView (v : Nat) : (s.setSeq v).unsol = s.unsol := rfl
@[simp] theorem setOffered_unsolView (o : List Input) : (s.setOffered o).unsol = s.unsol := rfl
@[simp] theorem setConsumed_unsolView (c : Consumed) : (s.setConsumed c).unsol = s.unsol := rfl
@[simp] theorem setQueue_logView (q : List Entry) : (s.setQueue q).log = s.log := rfl
@[simp] theorem setTimer_logView (rt retries : Nat) (armed : Bool) (ht : Nat) : (s.setTimer rt retries armed ht).log = s.log := rfl
@[simp] theorem setRxbuf_logView (b : List Byte) : (s.setRxbuf b).log = s.log := rfl
@[simp] theorem setNextTag_logView (n : Nat) : (s.setNextTag n).log = s.log := rfl
@[simp] theorem setSeq_logView (v : Nat) : (s.setSeq v).log = s.log := rfl
@[simp] theorem setOffered_logView (o : List Input) : (s.setOffered o).log = s.log := rfl
@[simp] theorem setConsumed_logView (c : Consumed) : (s.setConsumed c).log = s.log := rfl
@[simp] theorem setQueue_replyView (q : List Entry) : (s.setQueue q).reply = s.reply := rfl
@[simp] theorem setTimer_replyView (rt retries : Nat) (armed : Bool) (ht : Nat) : (s.setTimer rt retries armed ht).reply = s.reply := rfl
@[simp] theorem setRxbuf_replyView (b : List Byte) : (s.setRxbuf b).reply = s.reply := rfl
@[simp] theorem setNextTag_replyView (n : Nat) : (s.setNextTag n).reply = s.reply := rfl
@[simp] theorem setSeq_replyView (v : Nat) : (s.setSeq v).reply = s.reply := rfl
@[simp] theorem setOffered_replyView (o : List Input) : (s.setOffered o).reply = s.reply := rfl
@[simp] theorem setConsumed_replyView (c : Consumed) : (s.setConsumed c).reply = s.reply := rfl
@[simp] theorem setQueue_codecOutView (q : List Entry) : (s.setQueue q).codecOut = s.codecOut := rfl
@[simp] theorem setTimer_codecOutView (rt retries : Nat) (armed : Bool) (ht : Nat) : (s.setTimer rt retries armed ht).codecOut = s.codecOut := rfl
@[simp] theorem setRxbuf_codecOutView (b : List Byte) : (s.setRxbuf b).codecOut = s.codecOut := rfl
@[simp] theorem setNextTag_codecOutView (n : Nat) : (s.setNextTag n).codecOut = s.codecOut := rfl
@[simp] theorem setSeq_codecOutView (v : Nat) : (s.setSeq v).codecOut = s.codecOut := rfl
@[simp] theorem setOffered_codecOutView (o : List Input) : (s.setOffered o).codecOut = s.codecOut := rfl
@[simp] theorem setConsumed_codecOutView (c : Consumed) : (s.setConsumed c).codecOut = s.codecOut := rfl

/-! ### raise is an append to LOG (R17) -/

@[simp] theorem raise_eq (e : LogEvent) : s.raise e = s.emit (.log e) := rfl

/-! ### the later of two updates of one field wins; writing back what is there changes nothing -/

@[simp] theorem setQueue_setQueue (q q' : List Entry) : (s.setQueue q).setQueue q' = s.setQueue q' := rfl
@[simp] theorem setRxbuf_setRxbuf (b b' : List Byte) : (s.setRxbuf b).setRxbuf b' = s.setRxbuf b' := rfl
@[simp] theorem setTimer_setTimer (a b : Nat) (c : Bool) (d a' b' : Nat) (c' : Bool) (d' : Nat) :
    (s.setTimer a b c d).setTimer a' b' c' d' = s.setTimer a' b' c' d' := rfl
@[simp] theorem setOffered_setOffered (o o' : List Input) : (s.setOffered o).setOffered o' = s.setOffered o' := rfl
@[simp] theorem setQueue_self : s.setQueue s.queue = s := rfl
@[simp] theorem setRxbuf_self : s.setRxbuf s.rxbuf = s := rfl
@[simp] theorem setOffered_self : s.setOffered s.offered = s := rfl
@[simp] theorem setTimer_self : s.setTimer s.rtCount s.retriesLeft s.htArmed s.htCount = s := rfl

/-! ### the accumulation buffer and the dispatcher's fields do not meet -/

theorem emit_setRxbuf (e : Emission) (b : List Byte) : (s.setRxbuf b).emit e = (s.emit e).setRxbuf b := rfl
theorem setQueue_setRxbuf (q : List Entry) (b : List Byte) : (s.setRxbuf b).setQueue q = (s.setQueue q).setRxbuf b := rfl
theorem setTimer_setRxbuf (b : List Byte) (x y : Nat) (z : Bool) (w : Nat) :
    (s.setRxbuf b).setTimer x y z w = (s.setTimer x y z w).setRxbuf b := rfl

/-- Two states with equal fields are equal. -/
theorem state_ext {s t : State} (h1 : s.cfg = t.cfg) (h2 : s.queue = t.queue) (h3 : s.rtCount = t.rtCount)
    (h4 : s.retriesLeft = t.retriesLeft) (h5 : s.htArmed = t.htArmed) (h6 : s.htCount = t.htCount)
    (h7 : s.rxbuf = t.rxbuf) (h8 : s.nextTag = t.nextTag) (h9 : s.seq = t.seq) (h10 : s.out = t.out)
    (h11 : s.consumed = t.consumed) (h12 : s.offered = t.offered) : s = t := by
  cases s; cases t; simp_all

end Sys2Proof.Machine
end

