-- ==== Sys2Proof/Laws/Ops.lean ====
section
/-! SUPPORT. One lemma per shared operation that says all it can do; the provers cite these instead of unfolding. -/

namespace Sys2Proof.Machine

/-! ### encodings the engine sends -/

/-- A request within PAYLOAD_MAX is sent with its checksum computed (R171, R103). -/
theorem requestBytes_eq (e : Entry) (h : e.payload.length ≤ payloadMax) :
    requestBytes e = sofBytes (sofOf e.kind e.func e.payload) := by
  simp [requestBytes, encodeFrame, encodedBytes, Nat.not_lt.mpr h]

/-! ### StartHead (R171) and Settle (R170) -/

theorem startHead_nil {s : State} (h : s.queue = []) : startHead s = s := by simp [startHead, h]

theorem startHead_cons {s : State} {e : Entry} {q : List Entry} (h : s.queue = e :: q) :
    startHead s = (s.emit (.tx (requestBytes e))).setTimer s.cfg.retryInterval s.cfg.retryCount false 0 := by
  simp [startHead, h]

theorem settle_nil {st : Status} {s : State} (h : s.queue = []) : settle st s = s := by simp [settle, h]

theorem settle_cons {st : Status} {s : State} {e : Entry} {q : List Entry} (h : s.queue = e :: q) :
    settle st s = startHead (((s.emit (.compl ⟨e.tag, st, completionFrames st e⟩)).setQueue q).setTimer 0 0 false 0) := by
  simp [settle, h]

/-- What StartHead leaves unchanged, whatever it does. -/
@[simp] theorem startHead_cfg (s : State) : (startHead s).cfg = s.cfg := by unfold startHead; split <;> simp
@[simp] theorem startHead_queue (s : State) : (startHead s).queue = s.queue := by unfold startHead; split <;> simp
@[simp] theorem startHead_rxbuf (s : State) : (startHead s).rxbuf = s.rxbuf := by unfold startHead; split <;> simp
@[simp] theorem startHead_nextTag (s : State) : (startHead s).nextTag = s.nextTag := by unfold startHead; split <;> simp
@[simp] theorem startHead_seq (s : State) : (startHead s).seq = s.seq := by unfold startHead; split <;> simp
@[simp] theorem startHead_consumed (s : State) : (startHead s).consumed = s.consumed := by unfold startHead; split <;> simp
@[simp] theorem startHead_offered (s : State) : (startHead s).offered = s.offered := by unfold startHead; split <;> simp
@[simp] theorem startHead_compl (s : State) : (startHead s).compl = s.compl := by unfold startHead; split <;> simp

/-- StartHead does not look at the buffer. -/
theorem startHead_setRxbuf (s : State) (b : List Byte) : startHead (s.setRxbuf b) = (startHead s).setRxbuf b := by
  unfold startHead; simp only [setRxbuf_queue]; split <;> rfl

/-- What Settle leaves unchanged. -/
@[simp] theorem settle_cfg (st : Status) (s : State) : (settle st s).cfg = s.cfg := by unfold settle; split <;> simp
@[simp] theorem settle_queue (st : Status) (s : State) : (settle st s).queue = s.queue.tail := by
  unfold settle; split <;> simp_all
@[simp] theorem settle_rxbuf (st : Status) (s : State) : (settle st s).rxbuf = s.rxbuf := by unfold settle; split <;> simp
@[simp] theorem settle_nextTag (st : Status) (s : State) : (settle st s).nextTag = s.nextTag := by
  unfold settle; split <;> simp
@[simp] theorem settle_seq (st : Status) (s : State) : (settle st s).seq = s.seq := by unfold settle; split <;> simp
@[simp] theorem settle_consumed (st : Status) (s : State) : (settle st s).consumed = s.consumed := by
  unfold settle; split <;> simp
@[simp] theorem settle_offered (st : Status) (s : State) : (settle st s).offered = s.offered := by
  unfold settle; split <;> simp

theorem settle_setRxbuf (st : Status) (s : State) (b : List Byte) :
    settle st (s.setRxbuf b) = (settle st s).setRxbuf b := by
  unfold settle
  simp only [setRxbuf_queue]
  split
  · rfl
  · simp [emit_setRxbuf, setQueue_setRxbuf, setTimer_setRxbuf, startHead_setRxbuf]

/-! ### AllocTag (R162) -/

/-- The loop answers a candidate; those before it are in use, and it is free unless the fuel ran out first. -/
theorem firstFreeTag_spec (used : List Byte) (m : Nat) (fuel t : Nat) (ht : t < m) :
    ∃ k ≤ fuel, firstFreeTag used m fuel t = (t + k) % m ∧
      (∀ j < k, BitVec.ofNat 8 ((t + j) % m) ∈ used) ∧
      (k < fuel → BitVec.ofNat 8 ((t + k) % m) ∉ used) := by
  induction fuel generalizing t with
  | zero => exact ⟨0, le_rfl, by simp [firstFreeTag, Nat.mod_eq_of_lt ht], by simp, by simp⟩
  | succ n ih =>
    by_cases h : BitVec.ofNat 8 t ∈ used
    · obtain ⟨k, hk, h1, h2, h3⟩ := ih ((t + 1) % m) (Nat.mod_lt _ (by omega))
      have e : ∀ j, ((t + 1) % m + j) % m = (t + (j + 1)) % m := fun j => by
        rw [Nat.mod_add_mod]; congr 1; omega
      refine ⟨k + 1, by omega, by simp [firstFreeTag, h, h1, e], ?_, ?_⟩
      · intro j hj
        cases j with
        | zero => simpa [Nat.mod_eq_of_lt ht] using h
        | succ j => rw [← e]; exact h2 j (by omega)
      · intro hk'; rw [← e]; exact h3 (by omega)
    · exact ⟨0, by omega, by simp [firstFreeTag, h, Nat.mod_eq_of_lt ht], by simp, by simpa [Nat.mod_eq_of_lt ht] using h⟩

/-- AllocTag writes next_tag and nothing else. -/
theorem allocTag_state (s : State) :
    (allocTag s).2 = s.setNextTag (((allocTag s).1 + 1) % 2 ^ s.cfg.tagWidth) := rfl

/-! ### Correlate (R165) -/

theorem correlate_nil {f : Sof} {s : State} (h : s.queue = []) : correlate f s = s.emit (.unsol f) := by
  simp [correlate, h]

/-- Every case of Correlate with a head. -/
theorem correlate_cons {f : Sof} {s : State} {e : Entry} {q : List Entry} (h : s.queue = e :: q) :
    correlate f s =
      if f.func = e.func then
        if settlesOn s.cfg e f then settle .success (s.setQueue ({ e with resp := e.resp ++ [f] } :: q))
        else if e.resp.length < s.cfg.respDepth - 1 then s.setQueue ({ e with resp := e.resp ++ [f] } :: q)
        else s.raise (.responseOverflow e.tag f.func)
      else s.emit (.unsol f) := by
  simp [correlate, h]

theorem settlesOn_iff (c : Cfg) (e : Entry) (f : Sof) :
    settlesOn c e f = true ↔ (e.multi = false ∨ f.kind = c.kindReq) := by
  simp [settlesOn]

theorem correlate_setRxbuf (f : Sof) (s : State) (b : List Byte) :
    correlate f (s.setRxbuf b) = (correlate f s).setRxbuf b := by
  unfold correlate
  simp only [setRxbuf_queue, setRxbuf_cfg]
  split
  · rfl
  · rename_i e q _
    by_cases h1 : f.func = e.func
    · by_cases h2 : settlesOn s.cfg e f = true
      · simp only [h1, h2, if_true]
        rw [setQueue_setRxbuf, settle_setRxbuf]
      · by_cases h3 : e.resp.length < s.cfg.respDepth - 1
        · simp only [h1, h2, h3, if_true]; rfl
        · simp only [h1, h2, h3, if_true, if_false]; rfl
    · simp only [h1, if_false]; rfl

/-- What Correlate leaves unchanged. -/
@[simp] theorem correlate_cfg (f : Sof) (s : State) : (correlate f s).cfg = s.cfg := by
  unfold correlate; split <;> (try split_ifs) <;> simp
@[simp] theorem correlate_rxbuf (f : Sof) (s : State) : (correlate f s).rxbuf = s.rxbuf := by
  unfold correlate; split <;> (try split_ifs) <;> simp
@[simp] theorem correlate_nextTag (f : Sof) (s : State) : (correlate f s).nextTag = s.nextTag := by
  unfold correlate; split <;> (try split_ifs) <;> simp
@[simp] theorem correlate_seq (f : Sof) (s : State) : (correlate f s).seq = s.seq := by
  unfold correlate; split <;> (try split_ifs) <;> simp
@[simp] theorem correlate_consumed (f : Sof) (s : State) : (correlate f s).consumed = s.consumed := by
  unfold correlate; split <;> (try split_ifs) <;> simp
@[simp] theorem correlate_offered (f : Sof) (s : State) : (correlate f s).offered = s.offered := by
  unfold correlate; split <;> (try split_ifs) <;> simp

/-! ### CANCEL (R174 to R176) -/

theorem cancelTag_head {s : State} {e : Entry} {q : List Entry} (h : s.queue = e :: q) :
    cancelTag e.tag s = settle .cancelled (s.raise (.externalCancel e.tag)) := by
  simp [cancelTag, h]

/-- Cancelling a tag that only an entry behind the head carries. -/
theorem cancelTag_behind {s : State} {h e : Entry} {q1 q2 : List Entry} (hq : s.queue = h :: (q1 ++ e :: q2))
    (hh : h.tag ≠ e.tag) (h1 : ∀ x ∈ q1, x.tag ≠ e.tag) :
    cancelTag e.tag s = ((s.setQueue (h :: (q1 ++ q2))).emit (.compl ⟨e.tag, .cancelled, []⟩)).raise
      (.externalCancel e.tag) := by
  have hf : q1.find? (fun x => x.tag == e.tag) = none := by simpa using h1
  have he : (q1 ++ e :: q2).eraseP (fun x => x.tag == e.tag) = q1 ++ q2 := by
    rw [List.eraseP_append_right _ (by simpa using h1)]; simp
  simp [cancelTag, cancelQueued, hq, hh, hf, he]

/-- Cancelling a tag in no entry has no effect (R176). -/
theorem cancelTag_unknown {s : State} {t : Byte} (h : t ∉ tagsInUse s.queue) : cancelTag t s = s := by
  unfold cancelTag cancelQueued
  split
  · rfl
  · rename_i e q hq
    simp only [tagsInUse, hq, List.map_cons, List.mem_cons, List.mem_map, not_or, not_exists, not_and] at h
    have hf : q.find? (fun x => x.tag == t) = none := by simpa using fun x hx => h.2 x hx
    simp [Ne.symm h.1, hf]

/-! ### TICK (R190) -/

theorem tick_nil {s : State} (h : s.queue = []) : tick s = s := by simp [tick, h]

theorem tick_timing {s : State} {e : Entry} {q : List Entry} (h : s.queue = e :: q) (ha : s.htArmed = false) :
    tick s = tickTiming e s := by simp [tick, h, ha]

theorem tick_expiring {s : State} {e : Entry} {q : List Entry} (h : s.queue = e :: q) (ha : s.htArmed = true) :
    tick s = tickExpiring e s := by simp [tick, h, ha]

/-! ### the receive path (R130, R131) -/

@[simp] theorem sofReceived_valid {f : Sof} (h : validateChecksum (.sof f) = true) (s : State) :
    sofReceived f s = sofValid f s := by simp [sofReceived, h]

@[simp] theorem sofReceived_invalid {f : Sof} (h : validateChecksum (.sof f) = false) (s : State) :
    sofReceived f s = sofInvalid f s := by simp [sofReceived, h]

/-- ProcessFrame does not look at the buffer. -/
theorem processFrame_setRxbuf (f : Frame) (s : State) (b : List Byte) :
    processFrame (s.setRxbuf b) f = (processFrame s f).setRxbuf b := by
  cases f with
  | sof f =>
    simp only [processFrame, sofReceived]
    split
    · simp [sofValid, emit_setRxbuf, correlate_setRxbuf]
    · rfl
  | _ => rfl

theorem foldl_processFrame_setRxbuf (fs : List Frame) (s : State) (b : List Byte) :
    fs.foldl processFrame (s.setRxbuf b) = (fs.foldl processFrame s).setRxbuf b := by
  induction fs generalizing s with
  | nil => rfl
  | cons f fs ih => simp [processFrame_setRxbuf, ih]

/-! ### which input the step takes -/

/-- The first offered input has a step. -/
theorem fetch_cons {s : State} {inp : Input} {later : List Input} {i : Instr} {rest : List Byte}
    (ho : s.offered = inp :: later) (hd : decode s.cfg inp.port inp.bytes = .instr i rest) (hs : hasStep s i = true) :
    fetch s = .run i (leftover inp.port rest ++ later) := by
  have hf : fetchFuel s.offered = (inp.bytes.length + fetchFuel later) + 1 := by simp [fetchFuel, ho]; omega
  simp [fetch, hf]
  simp [ho, fetchFrom, hd, hs]

/-- Inputs that are one DISPATCH each are passed and stay where they are. -/
theorem fetchFrom_passes {s : State} (held : List Input) (passed later : List Input) (fuel : Nat)
    (hh : ∀ x ∈ held, ∃ j, decode s.cfg x.port x.bytes = .instr j [] ∧ hasStep s j = false) :
    fetchFrom s (held.length + fuel) passed (held ++ later) = fetchFrom s fuel (passed ++ held) later := by
  induction held generalizing passed with
  | nil => simp
  | cons x held ih =>
    obtain ⟨j, hd, hs⟩ := hh x (by simp)
    rw [List.length_cons, show held.length + 1 + fuel = (held.length + fuel) + 1 by omega, List.cons_append, fetchFrom]
    simp only [hd, hs, if_false, Bool.false_eq_true, leftover, if_true, List.nil_append]
    rw [ih _ (fun y hy => hh y (by simp [hy]))]
    simp [heldPart]

end Sys2Proof.Machine
end

