-- ==== Sys2Proof/Laws/Fetch.lean ====
section
/-! SUPPORT. What `fetchFrom` does with its fuel and with the bytes behind a held DISPATCH (log 5, log 6, log 25). -/

namespace Sys2Proof.Machine

/-- The operands of DISPATCH are read from a prefix of the bytes, which alone give the same. -/
theorem splitDispatch_prefix {r : List Byte} {kind func : Byte} {payload rest : List Byte}
    (h : splitDispatch r = some (kind, func, payload, rest)) :
    ∃ a, r = a ++ rest ∧ splitDispatch a = some (kind, func, payload, []) := by
  match r, h with
  | kind' :: func' :: n :: r, h =>
    simp only [splitDispatch] at h
    split at h
    · simp at h
    · simp at h
      obtain ⟨rfl, rfl, rfl, rfl⟩ := h
      refine ⟨kind' :: func' :: n :: r.take n.toNat, by simp, ?_⟩
      simp only [splitDispatch, List.length_take]
      rw [if_neg (by omega)]
      simp

/-- Bytes that decode to a held DISPATCH are those of the DISPATCH, which alone are one too, and what is left of them. -/
theorem decode_held {s : State} {c : Cfg} {p : Port} {bs rest : List Byte} {i : Instr} (h : decode c p bs = .instr i rest)
    (d : hasStep s i = false) :
    rest.length < bs.length ∧ ∃ a, bs = a ++ rest ∧ ∃ j, decode c p a = .instr j [] ∧ hasStep s j = false := by
  cases p <;> simp only [decode] at h
  case transport => split at h <;> simp at h; obtain ⟨rfl, _⟩ := h; simp [hasStep] at d
  case timeBase => split at h <;> simp at h; obtain ⟨rfl, _⟩ := h; simp [hasStep] at d
  case resetInput => split at h <;> simp at h; obtain ⟨rfl, _⟩ := h; simp [hasStep] at d
  case wire =>
    unfold decodeWire at h
    split at h
    · rename_i f n _
      simp at h
      obtain ⟨rfl, _⟩ := h
      exfalso
      cases f <;> simp only [instrOfFrame] at d <;> (try split at d) <;> simp [hasStep] at d
    · simp at h
  case kind =>
    unfold decodeKind at h
    split at h
    · split_ifs at h <;> simp at h <;> (obtain ⟨rfl, _⟩ := h; simp [hasStep] at d)
    · simp at h
  case codec =>
    unfold decodeCodec at h
    split at h
    · simp at h
    · split_ifs at h <;> (try split at h) <;> simp at h <;> (obtain ⟨rfl, _⟩ := h; simp [hasStep] at d)
  case event =>
    unfold decodeEvent at h
    split at h
    · simp at h
    · rename_i ev r
      split_ifs at h with h0 h1 h2 h3 h4 h5 h6 h7 <;> (try split at h) <;> simp at h <;> obtain ⟨rfl, rfl⟩ := h <;>
        first | (exfalso; simp [hasStep] at d; done) | skip
      rename_i hs
      obtain ⟨a, rfl, ha⟩ := splitDispatch_prefix hs
      subst h3
      exact ⟨by simp, 3#8 :: a, by simp, .evDispatch _ _ _, by simp [decode, decodeEvent, ha], d⟩
  case host =>
    unfold decodeHost at h
    split at h
    · simp at h
    · rename_i ev r
      split_ifs at h with h0 h1 h2 h3 <;> (try split at h) <;> simp at h <;> obtain ⟨rfl, rfl⟩ := h <;>
        first | (exfalso; simp [hasStep] at d; done) | skip
      rename_i hs
      obtain ⟨a, rfl, ha⟩ := splitDispatch_prefix hs
      subst h1
      exact ⟨by simp, 1#8 :: a, by simp, .hostDispatch _ _ _, by simp [decode, decodeHost, ha], d⟩

@[simp] theorem fetchFuel_nil : fetchFuel [] = 0 := rfl
@[simp] theorem fetchFuel_cons (x : Input) (l : List Input) : fetchFuel (x :: l) = x.bytes.length + 1 + fetchFuel l := by
  simp [fetchFuel]
@[simp] theorem fetchFuel_append (l m : List Input) : fetchFuel (l ++ m) = fetchFuel l + fetchFuel m := by simp [fetchFuel]

theorem fetchFuel_leftover (p : Port) (r : List Byte) : fetchFuel (leftover p r) ≤ r.length + 1 := by
  unfold leftover
  split <;> simp

/-- Joining takes one input away and no byte. -/
theorem fetchFuel_joinNext {inp : Input} {l l' : List Input} (h : joinNext inp l = some l') :
    fetchFuel l' = inp.bytes.length + fetchFuel l := by
  induction l generalizing l' with
  | nil => simp [joinNext] at h
  | cons x l ih =>
    simp only [joinNext] at h
    split at h
    · obtain rfl := Option.some.inj h
      simp
      omega
    · rw [Option.map_eq_some_iff] at h
      obtain ⟨m, hm, rfl⟩ := h
      simp [ih hm]
      omega

/-- Any fuel that is enough gives the same. -/
theorem fetchFrom_fuel (s : State) (f g : Nat) (passed l : List Input) (hf : fetchFuel l ≤ f) (hg : fetchFuel l ≤ g) :
    fetchFrom s f passed l = fetchFrom s g passed l := by
  induction f generalizing g passed l with
  | zero =>
    cases l with
    | nil => cases g <;> rfl
    | cons x l => simp at hf
  | succ f ih =>
    cases l with
    | nil => cases g <;> rfl
    | cons x l =>
      rw [fetchFuel_cons] at hf hg
      obtain ⟨g, rfl⟩ : ∃ k, g = k + 1 := ⟨g - 1, by omega⟩
      simp only [fetchFrom]
      split
      · rename_i i rest hd
        split
        · rfl
        · rename_i hs
          have h1 := (decode_held hd (by simpa using hs)).1
          have h2 := fetchFuel_leftover x.port rest
          apply ih <;> rw [fetchFuel_append] <;> omega
      · split
        · rename_i l' hl
          apply ih <;> rw [fetchFuel_joinNext hl] <;> omega
        · apply ih <;> omega
      · rfl

end Sys2Proof.Machine
end

