-- ==== Sys2Proof/Laws/Frames.lean ====
section
/-! SUPPORT. The frame of the operations on the queue and its timer: they emit, and write nothing but the queue and the four
timer fields (42_dispatcher.md, 43_timers.md, 41_receive.md R131). -/

namespace Sys2Proof.Machine

/-- `t` is `s` with the queue, the timer fields and the end of the traces changed, and nothing else. -/
structure QueueStep (s t : State) : Prop where
  grows : tracesGrow s t
  cfg : t.cfg = s.cfg
  consumed : t.consumed = s.consumed
  seq : t.seq = s.seq
  nextTag : t.nextTag = s.nextTag
  rxbuf : t.rxbuf = s.rxbuf
  offered : t.offered = s.offered

theorem tracesGrow_refl (s : State) : tracesGrow s s := ⟨[], by simp⟩

theorem tracesGrow_trans {a b c : State} (h : tracesGrow a b) (g : tracesGrow b c) : tracesGrow a c := by
  obtain ⟨n, h⟩ := h
  obtain ⟨m, g⟩ := g
  exact ⟨n ++ m, by simp [g, h]⟩

theorem QueueStep.refl (s : State) : QueueStep s s := ⟨tracesGrow_refl s, rfl, rfl, rfl, rfl, rfl, rfl⟩

theorem QueueStep.trans {a b c : State} (h : QueueStep a b) (g : QueueStep b c) : QueueStep a c :=
  ⟨tracesGrow_trans h.grows g.grows, g.cfg.trans h.cfg, g.consumed.trans h.consumed, g.seq.trans h.seq,
    g.nextTag.trans h.nextTag, g.rxbuf.trans h.rxbuf, g.offered.trans h.offered⟩

theorem queueStep_emit (s : State) (e : Emission) : QueueStep s (s.emit e) := ⟨⟨[e], rfl⟩, rfl, rfl, rfl, rfl, rfl, rfl⟩

theorem queueStep_raise (s : State) (e : LogEvent) : QueueStep s (s.raise e) := queueStep_emit s _

theorem queueStep_setQueue (s : State) (q : List Entry) : QueueStep s (s.setQueue q) :=
  ⟨⟨[], by simp⟩, rfl, rfl, rfl, rfl, rfl, rfl⟩

theorem queueStep_setTimer (s : State) (rt retries : Nat) (armed : Bool) (ht : Nat) :
    QueueStep s (s.setTimer rt retries armed ht) := ⟨⟨[], by simp⟩, rfl, rfl, rfl, rfl, rfl, rfl⟩

theorem queueStep_startHead (s : State) : QueueStep s (startHead s) := by
  unfold startHead
  split
  · exact .refl s
  · exact (queueStep_emit _ _).trans (queueStep_setTimer _ _ _ _ _)

theorem queueStep_settle (st : Status) (s : State) : QueueStep s (settle st s) := by
  unfold settle
  split
  · exact .refl s
  · exact (((queueStep_emit _ _).trans (queueStep_setQueue _ _)).trans (queueStep_setTimer _ _ _ _ _)).trans
      (queueStep_startHead _)

theorem queueStep_correlate (f : Sof) (s : State) : QueueStep s (correlate f s) := by
  unfold correlate
  split
  · exact queueStep_emit _ _
  · split_ifs
    · exact (queueStep_setQueue _ _).trans (queueStep_settle _ _)
    · exact queueStep_setQueue _ _
    · exact queueStep_raise _ _
    · exact queueStep_emit _ _

theorem queueStep_sofValid (f : Sof) (s : State) : QueueStep s (sofValid f s) :=
  (queueStep_emit _ _).trans (queueStep_correlate _ _)

theorem queueStep_processFrame (s : State) (f : Frame) : QueueStep s (processFrame s f) := by
  cases f with
  | sof f =>
    simp only [processFrame, sofReceived]
    split
    · exact queueStep_sofValid _ _
    · exact (queueStep_emit _ _).trans (queueStep_raise _ _)
  | malformed => exact (queueStep_emit _ _).trans (queueStep_raise _ _)
  | ack => exact .refl s
  | _ => exact queueStep_raise _ _

theorem queueStep_processFrames (fs : List Frame) (s : State) : QueueStep s (fs.foldl processFrame s) := by
  induction fs generalizing s with
  | nil => exact .refl s
  | cons f fs ih => exact (queueStep_processFrame s f).trans (ih _)

theorem queueStep_cancel (t : Byte) (s : State) : QueueStep s (cancel t s) := by
  unfold cancel
  refine (queueStep_emit s (.reply (.accepted t))).trans ?_
  unfold cancelTag
  split
  · exact .refl _
  · split_ifs
    · exact (queueStep_raise _ _).trans (queueStep_settle _ _)
    · unfold cancelQueued
      split
      · exact .refl _
      · split
        · exact .refl _
        · exact ((queueStep_setQueue _ _).trans (queueStep_emit _ _)).trans (queueStep_raise _ _)

theorem queueStep_tick (s : State) : QueueStep s (tick s) := by
  unfold tick
  split
  · exact .refl s
  · split_ifs
    · unfold tickExpiring
      dsimp only
      split_ifs
      · exact ((queueStep_setTimer _ _ _ _ _).trans (queueStep_raise _ _)).trans (queueStep_settle _ _)
      · exact queueStep_setTimer _ _ _ _ _
    · unfold tickTiming
      dsimp only
      split_ifs
      · exact (((queueStep_setTimer _ _ _ _ _).trans (queueStep_emit _ _)).trans (queueStep_raise _ _)).trans
          (queueStep_setTimer _ _ _ _ _)
      · exact ((queueStep_setTimer _ _ _ _ _).trans (queueStep_setTimer _ _ _ _ _)).trans (queueStep_raise _ _)
      · exact queueStep_setTimer _ _ _ _ _

/-- RX_BYTE is the extracted frames processed in order, in the state with the remainder stored (R130). -/
theorem rxByte_eq (b : Byte) (s : State) :
    rxByte b s = (extractFrames (s.rxbuf ++ [b])).1.foldl processFrame (s.setRxbuf (extractFrames (s.rxbuf ++ [b])).2) := rfl

/-- What DISPATCH leaves unchanged. -/
theorem dispatch_frame (again : Input) (kind func : Byte) (payload : List Byte) (s : State) :
    let t := dispatch again kind func payload s
    tracesGrow s t ∧ t.cfg = s.cfg ∧ t.consumed = s.consumed ∧ t.seq = s.seq ∧ t.rxbuf = s.rxbuf := by
  intro t
  unfold t dispatch
  split_ifs
  · unfold dispatchEnabled
    split_ifs
    · exact ⟨((queueStep_emit s _).trans (queueStep_raise _ _)).grows, rfl, rfl, rfl, rfl⟩
    · dsimp only
      split_ifs
      · refine ⟨tracesGrow_trans ?_ (queueStep_startHead _).grows, ?_⟩
        · exact ⟨[.reply (.accepted (BitVec.ofNat 8 (allocTag s).1))], rfl⟩
        · simp [allocTag_state]
      · exact ⟨⟨[.reply (.accepted (BitVec.ofNat 8 (allocTag s).1))], rfl⟩, rfl, rfl, rfl, rfl⟩
  · exact ⟨tracesGrow_refl _, rfl, rfl, rfl, rfl⟩

end Sys2Proof.Machine
end

