-- ==== Sys2Proof/Laws/Good.lean ====
section
/-! SUPPORT. Each operation keeps the invariants (10_state.md R34), with the three groups of them taken apart: those of the queue,
those of the timer, and the rest. -/

namespace Sys2Proof.Machine

/-- The invariants that speak of the queue alone. -/
structure QueueGood (c : Cfg) (q : List Entry) : Prop where
  fits : q.length ≤ c.queueDepth
  tagsDistinct : (tagsInUse q).Nodup
  onlyHeadHasResp : ∀ e ∈ q.tail, e.resp = []
  entries : ∀ e ∈ q, EntryGood c e

/-- The invariants that speak of the timer. -/
structure TimerGood (s : State) : Prop where
  idle : phase s = .idle → s.rtCount = 0 ∧ s.retriesLeft = 0 ∧ s.htArmed = false ∧ s.htCount = 0
  timing : phase s = .timing → 1 ≤ s.rtCount ∧ s.rtCount ≤ s.cfg.retryInterval ∧ s.htCount = 0
  expiring : phase s = .expiring →
    s.retriesLeft = 0 ∧ s.rtCount = 0 ∧ 1 ≤ s.htCount ∧ s.htCount ≤ s.cfg.hardTimeout
  retries : s.retriesLeft ≤ s.cfg.retryCount

/-- The other invariants. -/
structure RestGood (s : State) : Prop where
  cfgValid : s.cfg.valid = true
  buffer : incompleteBuffer s.rxbuf
  nextTag : s.nextTag < 2 ^ s.cfg.tagWidth
  seq : s.seq ≤ 126

theorem goodState_iff (s : State) : GoodState s ↔ QueueGood s.cfg s.queue ∧ TimerGood s ∧ RestGood s :=
  ⟨fun ⟨a, b, c, d, e, f, g, h, i, j, k, l⟩ => ⟨⟨b, c, g, i⟩, ⟨d, e, f, j⟩, ⟨a, h, k, l⟩⟩,
   fun ⟨⟨b, c, g, i⟩, ⟨d, e, f, j⟩, ⟨a, h, k, l⟩⟩ => ⟨a, b, c, d, e, f, g, h, i, j, k, l⟩⟩

/-- Cfg.valid as the conjunction it decides (R252). -/
theorem cfg_valid_iff (c : Cfg) : c.valid = true ↔
    1 ≤ c.retryInterval ∧ 1 ≤ c.hardTimeout ∧ c.kindReq ≠ c.kindRes ∧ 257 ≤ c.rxBufDepth ∧ 2 ≤ c.respDepth
      ∧ 1 ≤ c.tagWidth ∧ c.tagWidth ≤ 8 ∧ 1 ≤ c.queueDepth ∧ c.queueDepth ≤ 2 ^ c.tagWidth := by simp [Cfg.valid]

/-- The tags are bytes. -/
theorem tags_le {c : Cfg} (h : c.valid = true) : 2 ^ c.tagWidth ≤ 256 := by
  have := (cfg_valid_iff c).mp h
  calc 2 ^ c.tagWidth ≤ 2 ^ 8 := Nat.pow_le_pow_right (by omega) (by omega)
    _ = 256 := rfl

theorem timerGood_congr {s t : State} (h : TimerGood s) (h0 : t.cfg = s.cfg) (h1 : t.rtCount = s.rtCount)
    (h2 : t.retriesLeft = s.retriesLeft) (h3 : t.htArmed = s.htArmed) (h4 : t.htCount = s.htCount) (h5 : busy t = busy s) :
    TimerGood t := by
  have hp : phase t = phase s := by simp [phase, h5, h3]
  obtain ⟨a, b, c, d⟩ := h
  constructor <;> simp only [h0, h1, h2, h3, h4, hp] <;> assumption

theorem queueGood_tail {c : Cfg} {q : List Entry} (h : QueueGood c q) : QueueGood c q.tail := by
  cases q with
  | nil => exact h
  | cons e q =>
    refine ⟨by have := h.fits; simp at *; omega, ?_, fun x hx => h.onlyHeadHasResp x (List.mem_of_mem_tail hx),
      fun x hx => h.entries x (by simp_all)⟩
    have := h.tagsDistinct
    simp [tagsInUse] at this ⊢
    exact this.2

/-- Settle needs of the queue only that what it leaves behind is good. -/
theorem good_settle (st : Status) {s : State} (hq : QueueGood s.cfg s.queue.tail) (hb : s.queue ≠ []) (hr : RestGood s) :
    GoodState (settle st s) := by
  have ht : TimerGood (settle st s) := by
    obtain ⟨e, q, he⟩ := List.exists_cons_of_ne_nil hb
    rw [settle_cons he]
    have := (cfg_valid_iff _).mp hr.cfgValid
    cases q with
    | nil =>
      rw [startHead_nil (by simp)]
      constructor <;> simp [phase, busy]
    | cons e' q =>
      rw [startHead_cons (e := e') (q := q) (by simp)]
      constructor <;> simp [phase, busy]
      omega
  rw [goodState_iff]
  refine ⟨by simpa using hq, ht, ?_⟩
  obtain ⟨a, b, c, d⟩ := hr
  constructor <;> simpa

theorem good_emit (e : Emission) {s : State} (h : GoodState s) : GoodState (s.emit e) := by
  obtain ⟨q, t, r⟩ := (goodState_iff s).mp h
  exact (goodState_iff _).mpr
    ⟨q, timerGood_congr t rfl rfl rfl rfl rfl rfl, ⟨r.cfgValid, r.buffer, r.nextTag, r.seq⟩⟩

theorem good_raise (e : LogEvent) {s : State} (h : GoodState s) : GoodState (s.raise e) := good_emit _ h

theorem good_setOffered (o : List Input) {s : State} (h : GoodState s) : GoodState (s.setOffered o) := by
  obtain ⟨q, t, r⟩ := (goodState_iff s).mp h
  exact (goodState_iff _).mpr
    ⟨q, timerGood_congr t rfl rfl rfl rfl rfl rfl, ⟨r.cfgValid, r.buffer, r.nextTag, r.seq⟩⟩

theorem good_setRxbuf {b : List Byte} {s : State} (h : GoodState s) (hb : incompleteBuffer b) :
    GoodState (s.setRxbuf b) := by
  obtain ⟨q, t, r⟩ := (goodState_iff s).mp h
  exact (goodState_iff _).mpr ⟨q, timerGood_congr t rfl rfl rfl rfl rfl rfl, ⟨r.cfgValid, hb, r.nextTag, r.seq⟩⟩

theorem good_setQueue {s : State} {q : List Entry} (h : GoodState s) (hq : QueueGood s.cfg q)
    (hb : q.isEmpty = s.queue.isEmpty) : GoodState (s.setQueue q) := by
  obtain ⟨_, t, r⟩ := (goodState_iff s).mp h
  exact (goodState_iff _).mpr ⟨hq, timerGood_congr t rfl rfl rfl rfl rfl (by simp [busy, hb]),
    ⟨r.cfgValid, r.buffer, r.nextTag, r.seq⟩⟩

theorem good_setTimer {s : State} {rt retries : Nat} {armed : Bool} {ht : Nat} (h : GoodState s)
    (hT : TimerGood (s.setTimer rt retries armed ht)) : GoodState (s.setTimer rt retries armed ht) := by
  obtain ⟨q, _, r⟩ := (goodState_iff s).mp h
  exact (goodState_iff _).mpr ⟨q, hT, ⟨r.cfgValid, r.buffer, r.nextTag, r.seq⟩⟩

/-- Retaining a frame that does not settle its head keeps the entry good (R25, R166). -/
theorem entryGood_retain {c : Cfg} {e : Entry} {f : Sof} (h : EntryGood c e) (hv : validateChecksum (.sof f) = true)
    (hf : f.func = e.func) (hs : settlesOn c e f = false) (hl : e.resp.length < c.respDepth) :
    EntryGood c { e with resp := e.resp ++ [f] } := by
  obtain ⟨g1, g2, g3, _, g5, g6, g7⟩ := h
  have hk : f.kind ≠ c.kindReq := by simp [settlesOn] at hs; exact hs.2
  have all : ∀ P : Sof → Prop, (∀ y ∈ e.resp, P y) → P f → ∀ y ∈ e.resp ++ [f], P y := by
    intro P h1 h2 y hy
    rcases List.mem_append.mp hy with hy | hy
    · exact h1 y hy
    · exact List.mem_singleton.mp hy ▸ h2
  exact ⟨g1, g2, g3, by simp; omega, all _ g5 hv, all _ g6 hf, fun hm => all _ (g7 hm) hk⟩

theorem good_correlate {s : State} {f : Sof} (hf : validateChecksum (.sof f) = true) (h : GoodState s) :
    GoodState (correlate f s) := by
  unfold correlate
  split
  · exact good_emit _ h
  · rename_i e q hq
    obtain ⟨qg, _, r⟩ := (goodState_iff s).mp h
    split_ifs with h1 h2 h3
    · refine good_settle _ ?_ (by simp) ⟨r.cfgValid, r.buffer, r.nextTag, r.seq⟩
      have := queueGood_tail qg
      rw [hq] at this
      simpa using this
    · refine good_setQueue h ?_ (by simp [hq])
      rw [hq] at qg
      refine ⟨by simpa using qg.fits, by simpa [tagsInUse] using qg.tagsDistinct, by simpa using qg.onlyHeadHasResp, ?_⟩
      intro x hx
      rcases List.mem_cons.mp hx with rfl | hx
      · exact entryGood_retain (qg.entries e (by simp)) hf h1 (by simpa using h2) (by omega)
      · exact qg.entries x (by simp [hx])
    · exact good_raise _ h
    · exact good_emit _ h

theorem good_processFrame {s : State} {f : Frame} (h : GoodState s) : GoodState (processFrame s f) := by
  cases f with
  | sof f =>
    simp only [processFrame, sofReceived]
    split
    · rename_i hv
      exact good_correlate hv (good_emit _ h)
    · exact good_emit _ (good_emit _ h)
  | malformed => exact good_emit _ (good_emit _ h)
  | ack => exact h
  | _ => exact good_emit _ h

theorem good_processFrames (fs : List Frame) {s : State} (h : GoodState s) : GoodState (fs.foldl processFrame s) := by
  induction fs generalizing s with
  | nil => exact h
  | cons f fs ih => exact ih (good_processFrame h)

theorem good_cancel {t : Byte} {s : State} (h : GoodState s) : GoodState (cancel t s) := by
  unfold cancel
  replace h := good_emit (.reply (.accepted t)) h
  generalize s.emit (.reply (.accepted t)) = s at *
  obtain ⟨qg, _, r⟩ := (goodState_iff s).mp h
  unfold cancelTag
  split
  · exact h
  · rename_i e q hq
    split_ifs
    · exact good_settle _ (queueGood_tail qg) (by simp [hq]) ⟨r.cfgValid, r.buffer, r.nextTag, r.seq⟩
    · unfold cancelQueued
      simp only [hq]
      split
      · exact h
      · refine good_raise _ (good_emit _ (good_setQueue h ?_ (by simp [hq])))
        rw [hq] at qg
        have sub : (e :: q.eraseP (fun x => x.tag == t)).Sublist (e :: q) := List.eraseP_sublist.cons_cons e
        refine ⟨sub.length_le.trans qg.fits, (sub.map _).nodup qg.tagsDistinct, ?_,
          fun x hx => qg.entries x (sub.subset hx)⟩
        intro x hx
        exact qg.onlyHeadHasResp x (by simpa using List.mem_of_mem_eraseP (by simpa using hx))

theorem good_tick {s : State} (h : GoodState s) : GoodState (tick s) := by
  unfold tick
  split
  · exact h
  · rename_i e q hq
    obtain ⟨qg, tg, r⟩ := (goodState_iff s).mp h
    have hv := (cfg_valid_iff _).mp r.cfgValid
    by_cases ha : s.htArmed = true
    · obtain ⟨x1, x2, x3, x4⟩ := tg.expiring (by simp [phase, busy, hq, ha])
      rw [if_pos ha]
      unfold tickExpiring
      dsimp only
      split_ifs
      · exact good_settle _ (queueGood_tail qg) (by simp [hq]) ⟨r.cfgValid, r.buffer, r.nextTag, r.seq⟩
      · refine good_setTimer h ?_
        constructor <;> simp [phase, busy, hq, ha] at * <;> omega
    · obtain ⟨x1, x2, x3⟩ := tg.timing (by simp [phase, busy, hq, ha])
      have hr := tg.retries
      rw [if_neg ha]
      simp only [Bool.not_eq_true] at ha
      unfold tickTiming
      dsimp only
      split_ifs
      · change GoodState (((s.setTimer s.cfg.retryInterval (s.retriesLeft - 1) s.htArmed s.htCount).emit
          (.tx (requestBytes e))).raise (.retransmit e.tag (s.cfg.retryCount - (s.retriesLeft - 1))))
        refine good_raise _ (good_emit _ (good_setTimer h ?_))
        constructor <;> simp [phase, busy, hq, ha] at * <;> omega
      · change GoodState ((s.setTimer (s.rtCount - 1) s.retriesLeft true s.cfg.hardTimeout).raise (.retryExhausted e.tag))
        refine good_raise _ (good_setTimer h ?_)
        constructor <;> simp [phase, busy, hq, ha] at * <;> omega
      · refine good_setTimer h ?_
        constructor <;> simp [phase, busy, hq, ha] at * <;> omega

/-- A free tag exists whenever DISPATCH is enabled, and AllocTag finds it (R162). -/
theorem allocTag_free {s : State} (h : GoodState s) (hr : s.queue.length < s.cfg.queueDepth) :
    (allocTag s).1 < 2 ^ s.cfg.tagWidth ∧ BitVec.ofNat 8 (allocTag s).1 ∉ tagsInUse s.queue := by
  have hv := (cfg_valid_iff _).mp h.cfgValid
  have hm := tags_le h.cfgValid
  have hm0 : 0 < 2 ^ s.cfg.tagWidth := Nat.pos_of_ne_zero (by simp)
  obtain ⟨k, hk, h1, h2, h3⟩ :=
    firstFreeTag_spec (tagsInUse s.queue) (2 ^ s.cfg.tagWidth) (2 ^ s.cfg.tagWidth) s.nextTag h.nextTagInRange
  have e1 : (allocTag s).1 = (s.nextTag + k) % 2 ^ s.cfg.tagWidth := h1
  rw [e1]
  generalize 2 ^ s.cfg.tagWidth = m at *
  refine ⟨Nat.mod_lt _ hm0, h3 ?_⟩
  by_contra hkm
  obtain rfl : k = m := by omega
  have distinct : ((List.range k).map fun j => BitVec.ofNat 8 ((s.nextTag + j) % k)).Nodup := by
    refine List.Nodup.map_on ?_ List.nodup_range
    intro a ha b hb hab
    simp at ha hb
    have hab := congrArg BitVec.toNat hab
    have l1 := Nat.mod_lt (s.nextTag + a) hm0
    have l2 := Nat.mod_lt (s.nextTag + b) hm0
    simp only [BitVec.toNat_ofNat] at hab
    rw [Nat.mod_eq_of_lt (a := (s.nextTag + a) % k) (by omega), Nat.mod_eq_of_lt (a := (s.nextTag + b) % k) (by omega)] at hab
    have : a % k = b % k := Nat.ModEq.add_left_cancel' (n := k) _ hab
    rwa [Nat.mod_eq_of_lt ha, Nat.mod_eq_of_lt hb] at this
  have sub : ((List.range k).map fun j => BitVec.ofNat 8 ((s.nextTag + j) % k)) ⊆ tagsInUse s.queue := by
    intro x hx
    simp at hx
    obtain ⟨j, hj, rfl⟩ := hx
    exact h2 j hj
  have := (distinct.subperm sub).length_le
  simp [tagsInUse] at this
  omega

/-- A queue that has room stays good with a new entry of a fresh tag at its end (R161). -/
theorem queueGood_push {c : Cfg} {q : List Entry} {t : Nat} {kind func : Byte} {payload : List Byte} (h : QueueGood c q)
    (hm : 2 ^ c.tagWidth ≤ 256) (hr : q.length < c.queueDepth) (ht : t < 2 ^ c.tagWidth)
    (hn : BitVec.ofNat 8 t ∉ tagsInUse q) (hl : payload.length ≤ payloadMax) :
    QueueGood c (q ++ [newEntry c (BitVec.ofNat 8 t) kind func payload]) := by
  refine ⟨by simp; omega, ?_, ?_, ?_⟩
  · simp only [tagsInUse, List.map_append, List.map_cons, List.map_nil] at *
    rw [List.nodup_append]
    refine ⟨h.tagsDistinct, by simp, ?_⟩
    intro x hx y hy hxy
    simp [newEntry] at hy
    subst hxy hy
    exact hn hx
  · intro x hx
    cases q with
    | nil => simp at hx
    | cons e q =>
      simp at hx
      rcases hx with hx | rfl
      · exact h.onlyHeadHasResp x (by simp [hx])
      · rfl
  · intro x hx
    rcases List.mem_append.mp hx with hx | hx
    · exact h.entries x hx
    · simp at hx
      subst hx
      refine ⟨?_, hl, rfl, by simp [newEntry], by simp [newEntry], by simp [newEntry], by simp [newEntry]⟩
      simp [newEntry]
      rw [Nat.mod_eq_of_lt (by omega)]
      exact ht

theorem good_dispatch {again : Input} {kind func : Byte} {payload : List Byte} {s : State} (h : GoodState s) :
    GoodState (dispatch again kind func payload s) := by
  unfold dispatch
  split_ifs with hroom
  · unfold dispatchEnabled
    split_ifs with hl
    · exact good_emit _ (good_emit _ h)
    · have hr : s.queue.length < s.cfg.queueDepth := by simpa [queueHasRoom] using hroom
      obtain ⟨a1, a2⟩ := allocTag_free h hr
      obtain ⟨qg, tg, r⟩ := (goodState_iff s).mp h
      have hv := (cfg_valid_iff _).mp r.cfgValid
      dsimp only
      rw [allocTag_state]
      generalize (allocTag s).1 = t at *
      have hq := queueGood_push (kind := kind) (func := func) qg (tags_le r.cfgValid) hr a1 a2 (Nat.not_lt.mp hl)
      have hn : (t + 1) % 2 ^ s.cfg.tagWidth < 2 ^ s.cfg.tagWidth := Nat.mod_lt _ (Nat.pos_of_ne_zero (by simp))
      split_ifs with hone
      · have he : s.queue = [] := by simpa using hone
        rw [startHead_cons (e := newEntry s.cfg (BitVec.ofNat 8 t) kind func payload) (q := []) (by simp [he]), goodState_iff]
        refine ⟨by simpa using hq, ?_, ⟨by simpa using r.cfgValid, by simpa using r.buffer, by simpa using hn,
          by simpa using r.seq⟩⟩
        constructor <;> simp [phase, busy, he]
        omega
      · rw [goodState_iff]
        refine ⟨by simpa using hq, timerGood_congr tg (by simp) (by simp) (by simp) (by simp) (by simp) ?_,
          ⟨by simpa using r.cfgValid, by simpa using r.buffer, by simpa using hn, by simpa using r.seq⟩⟩
        cases he : s.queue with
        | nil => simp [he] at hone
        | cons => simp [busy, he]
  · exact good_setOffered _ h

end Sys2Proof.Machine
end

