-- ==== Sys2Proof/Laws/Operands.lean ====
section
/-! SUPPORT. The operand bytes of DISPATCH and of the codec unit read back, both ways. -/

namespace Sys2Proof

open Sys2Proof.Machine

/-! ### operand bytes read back -/

theorem splitDispatch_bytes (k g : Byte) (p r : List Byte) (h : p.length ≤ 255) :
    splitDispatch (dispatchBytes k g p ++ r) = some (k, g, p, r) := by
  have hn : (BitVec.ofNat 8 p.length).toNat = p.length := by simp; omega
  simp [dispatchBytes, splitDispatch, hn]

theorem readFrameOperand_bytes (f : Frame) : readFrameOperand (frameOperandBytes f) = .frame f [] := by
  cases f <;> simp [frameOperandBytes, readFrameOperand]

/-- Splitting succeeds only on the bytes of its operands. -/
theorem splitDispatch_some {r : List Byte} {k g : Byte} {p rest : List Byte}
    (h : splitDispatch r = some (k, g, p, rest)) : dispatchBytes k g p ++ rest = r ∧ p.length ≤ 255 := by
  match r with
  | [] => simp [splitDispatch] at h
  | [_] => simp [splitDispatch] at h
  | [_, _] => simp [splitDispatch] at h
  | a :: b :: n :: r =>
    have hn := n.isLt
    simp only [splitDispatch] at h
    split_ifs at h with h1
    simp only [Option.some.injEq, Prod.mk.injEq] at h
    obtain ⟨rfl, rfl, rfl, rfl⟩ := h
    have hl : (r.take n.toNat).length = n.toNat := by simp; omega
    simp [dispatchBytes, hl]
    omega

/-- A frame operand is read only from its bytes. -/
theorem readFrameOperand_some {r rest : List Byte} {f : Frame} (h : readFrameOperand r = .frame f rest) :
    frameOperandBytes f ++ rest = r := by
  unfold readFrameOperand at h
  split at h
  · simp at h
  · split_ifs at h <;> (try split at h) <;> simp at h <;> obtain ⟨rfl, rfl⟩ := h <;> simp_all [frameOperandBytes]

end Sys2Proof
end

