-- ==== Sys2Proof/Laws/PerInstr.lean ====
section
/-! SUPPORT. One lemma per constructor of Instr for each family named in LAWS.json. -/

namespace Sys2Proof

open Sys2Proof.Machine

namespace Laws.RoundTrip

/-- Decoding the encoding of a well-formed instruction gives it back, with nothing left over. -/
def Statement (i : Instr) : Prop :=
  ∀ c : Cfg, c.valid = true → i.wellFormed c = true → decode c (encode c i).port (encode c i).bytes = .instr i []

theorem sof (f : Sof) : Statement (.sof f) := by
  intro c _ h
  have := decodeFrame_sofBytes f [] (by simpa [Instr.wellFormed] using h)
  simp only [List.append_nil] at this
  simp [encode, decode, decodeWire, this, instrOfFrame, ← sofBytes_length]

theorem sofMalformedLen01 (body : Option Byte) : Statement (.sofMalformedLen01 body) := by
  intro c _ _
  cases body <;> rfl

theorem sofMalformedLen2 (b0 b1 : Byte) : Statement (.sofMalformedLen2 b0 b1) := fun _ _ _ => rfl
theorem ack : Statement .ack := fun _ _ _ => rfl
theorem nak : Statement .nak := fun _ _ _ => rfl
theorem can : Statement .can := fun _ _ _ => rfl

theorem unknownHeader (x : Byte) : Statement (.unknownHeader x) := by
  intro c _ h
  simp [Instr.wellFormed, namedHeaders] at h
  simp [encode, decode, decodeWire, decodeFrame_ctrl, ctrlFrame, instrOfFrame, h]

theorem kindReq (func : Byte) (payload : List Byte) : Statement (.kindReq func payload) := by
  intro c _ h
  simp [Instr.wellFormed] at h
  simp [encode, decode, decodeKind, h]

theorem kindRes (func : Byte) (payload : List Byte) : Statement (.kindRes func payload) := by
  intro c hc h
  simp [Instr.wellFormed] at h
  simp [Cfg.valid] at hc
  simp [encode, decode, decodeKind, h, Ne.symm hc.2.2.1]

theorem kindOther (kind func : Byte) (payload : List Byte) : Statement (.kindOther kind func payload) := by
  intro c _ h
  simp [Instr.wellFormed] at h
  simp [encode, decode, decodeKind, h]

theorem evNop : Statement .evNop := fun _ _ _ => rfl
theorem evRxByte (b : Byte) : Statement (.evRxByte b) := fun _ _ _ => rfl
theorem evTick : Statement .evTick := fun _ _ _ => rfl

theorem evDispatch (kind func : Byte) (payload : List Byte) : Statement (.evDispatch kind func payload) := by
  intro c _ h
  have := splitDispatch_bytes kind func payload [] (by simpa [Instr.wellFormed] using h)
  simp only [List.append_nil] at this
  simp [encode, decode, decodeEvent, this]

theorem evCancel (tag : Byte) : Statement (.evCancel tag) := fun _ _ _ => rfl
theorem evSeqNext : Statement .evSeqNext := fun _ _ _ => rfl
theorem evReset : Statement .evReset := fun _ _ _ => rfl
theorem evReserved : Statement .evReserved := fun _ _ _ => rfl
theorem hostNop : Statement .hostNop := fun _ _ _ => rfl

theorem hostDispatch (kind func : Byte) (payload : List Byte) : Statement (.hostDispatch kind func payload) := by
  intro c _ h
  have := splitDispatch_bytes kind func payload [] (by simpa [Instr.wellFormed] using h)
  simp only [List.append_nil] at this
  simp [encode, decode, decodeHost, this]

theorem hostCancel (tag : Byte) : Statement (.hostCancel tag) := fun _ _ _ => rfl
theorem hostSeqNext : Statement .hostSeqNext := fun _ _ _ => rfl

theorem hostReserved (op : Byte) : Statement (.hostReserved op) := by
  intro c _ h
  simp [Instr.wellFormed] at h
  have h0 : op ≠ 0#8 := by rintro rfl; simp at h
  have h1 : op ≠ 1#8 := by rintro rfl; simp at h
  have h2 : op ≠ 2#8 := by rintro rfl; simp at h
  have h3 : op ≠ 3#8 := by rintro rfl; simp at h
  simp [encode, decode, decodeHost, h0, h1, h2, h3]

theorem codecEncode (f : Frame) : Statement (.codecEncode f) := by
  intro c _ _
  simp [encode, decode, decodeCodec, readFrameOperand_bytes]

theorem codecDecode (buf : List Byte) : Statement (.codecDecode buf) := fun _ _ _ => rfl
theorem codecExtract (buf : List Byte) : Statement (.codecExtract buf) := fun _ _ _ => rfl

theorem codecValidate (f : Frame) : Statement (.codecValidate f) := by
  intro c _ _
  simp [encode, decode, decodeCodec, readFrameOperand_bytes]

end Laws.RoundTrip

end Sys2Proof
end

