-- ==== Sys2Proof/Tests/Slice0.lean ====
section
/-! SUPPORT. Tests, with results taken from spec/95_test_vectors.md (named L1.x, L2.x, P1 to P4 there) and from the rules; and, for
each obligation with hypotheses, a witness that meets them. -/

namespace Sys2Proof.Tests

open Sys2Proof Sys2Proof.Machine Sys2Proof.Claims

/-- Cfg_T of 95_test_vectors.md. -/
def cfgT : Cfg :=
  { retryCount := 2, retryInterval := 2, hardTimeout := 5, tickPeriodMicros := 1000, kindReq := 0x01#8, kindRes := 0x02#8,
    multiSet := [0x13#8], queueDepth := 2, rxBufDepth := 257, respDepth := 3, tagWidth := 2 }

/-- A payload of `n` zeros. -/
def zeros (n : Nat) : List Byte := List.replicate n 0#8

theorem zeros_length (n : Nat) : (zeros n).length = n := List.length_replicate

/-- The state at power-on with Cfg_T. -/
def idle : State := State.powerOn cfgT

/-- An entry with a request of kind REQ and no payload. -/
def req (tag func : Byte) : Entry := { tag := tag, kind := 0x01#8, func := func, payload := [], multi := cfgT.isMulti func, resp := [] }

/-- The state in which these entries are queued and the head was just started. -/
def started (q : List Entry) : State :=
  { idle with queue := q, rtCount := 2, retriesLeft := 2, nextTag := q.length }

/-- What a step emitted, in order, from a state whose traces were empty. -/
def outs : Result → List Emission
  | .next t => t.out
  | .fault _ => []
  | .refused _ => []

/-- The queue after a step. -/
def queueAfter : Result → List Entry
  | .next t => t.queue
  | .fault _ => []
  | .refused _ => []

/-- Whether an instruction completes in a state. -/
def completes : Result → Bool
  | .next _ => true
  | .fault _ => false
  | .refused _ => false

/-- SOF(RES, 0x20, [00]) (L2.6). -/
def res20 : Sof := ⟨0x02#8, 0x20#8, [0x00#8], 0xD9#8⟩

/-- SOF(RES, 0x15, []) (L1.6). -/
def res15 : Sof := ⟨0x02#8, 0x15#8, [], 0xEB#8⟩

/-! ## WellFormed refuses what no encoding carries -/

theorem test_wf_sof : (Instr.sof ⟨0x01#8, 0x20#8, zeros 253, 0x00#8⟩).wellFormed cfgT = false := by simp [zeros_length, Instr.wellFormed, payloadMax]
theorem test_wf_unknownHeader : (Instr.unknownHeader 0x06#8).wellFormed cfgT = false := by decide
theorem test_wf_kindReq : (Instr.kindReq 0x20#8 (zeros 253)).wellFormed cfgT = false := by simp [zeros_length, Instr.wellFormed, payloadMax]
theorem test_wf_kindRes : (Instr.kindRes 0x20#8 (zeros 253)).wellFormed cfgT = false := by simp [zeros_length, Instr.wellFormed, payloadMax]
theorem test_wf_kindOther_payload : (Instr.kindOther 0x03#8 0x20#8 (zeros 253)).wellFormed cfgT = false := by simp [zeros_length, Instr.wellFormed, payloadMax]
theorem test_wf_kindOther_kind : (Instr.kindOther 0x01#8 0x20#8 []).wellFormed cfgT = false ∧
    (Instr.kindOther 0x02#8 0x20#8 []).wellFormed cfgT = false := by decide
theorem test_wf_evDispatch : (Instr.evDispatch 0x01#8 0x20#8 (zeros 256)).wellFormed cfgT = false := by simp [zeros_length, Instr.wellFormed]
theorem test_wf_hostDispatch : (Instr.hostDispatch 0x01#8 0x20#8 (zeros 256)).wellFormed cfgT = false := by simp [zeros_length, Instr.wellFormed]
theorem test_wf_hostReserved : (Instr.hostReserved 0x03#8).wellFormed cfgT = false := by decide

/-! ## Words written out from the encodings decode to their instruction -/

/-- wire-sof16 (R70, R72): L2.3. -/
theorem test_decode_sof : decode cfgT .wire [0x01#8, 0x03#8, 0x01#8, 0x15#8, 0xE8#8, 0x06#8, 0x42#8]
    = .instr (.sof ⟨0x01#8, 0x15#8, [], 0xE8#8⟩) [0x06#8, 0x42#8] := by decide
theorem test_decode_malformed0 : decode cfgT .wire [0x01#8, 0x00#8] = .instr (.sofMalformedLen01 none) [] := by decide
theorem test_decode_malformed1 : decode cfgT .wire [0x01#8, 0x01#8, 0xAA#8] = .instr (.sofMalformedLen01 (some 0xAA#8)) [] := by
  decide
theorem test_decode_malformed2 :
    decode cfgT .wire [0x01#8, 0x02#8, 0xAA#8, 0xBB#8] = .instr (.sofMalformedLen2 0xAA#8 0xBB#8) [] := by decide
/-- wire-ctrl8 (R71, R78). -/
theorem test_decode_ctrl : decode cfgT .wire [0x06#8] = .instr .ack [] ∧ decode cfgT .wire [0x15#8] = .instr .nak [] ∧
    decode cfgT .wire [0x18#8] = .instr .can [] ∧
    decode cfgT .wire [0x42#8, 0x01#8, 0x03#8] = .instr (.unknownHeader 0x42#8) [0x01#8, 0x03#8] := by decide
/-- sof-kind8 (R75). -/
theorem test_decode_kind : decode cfgT .kind [0x01#8, 0x13#8] = .instr (.kindReq 0x13#8 []) [] ∧
    decode cfgT .kind [0x02#8, 0x13#8, 0x01#8] = .instr (.kindRes 0x13#8 [0x01#8]) [] ∧
    decode cfgT .kind [0x03#8, 0x13#8] = .instr (.kindOther 0x03#8 0x13#8 []) [] := by decide
/-- event-sel3 (R79). -/
theorem test_decode_event : decode cfgT .event [0x00#8] = .instr .evNop [] ∧
    decode cfgT .event [0x01#8, 0x42#8] = .instr (.evRxByte 0x42#8) [] ∧ decode cfgT .event [0x02#8] = .instr .evTick [] ∧
    decode cfgT .event [0x03#8, 0x01#8, 0x42#8, 0x01#8, 0x00#8] = .instr (.evDispatch 0x01#8 0x42#8 [0x00#8]) [] ∧
    decode cfgT .event [0x04#8, 0xC8#8] = .instr (.evCancel 0xC8#8) [] ∧ decode cfgT .event [0x05#8] = .instr .evSeqNext [] ∧
    decode cfgT .event [0x06#8] = .instr .evReset [] ∧ decode cfgT .event [0x07#8] = .instr .evReserved [] := by decide
/-- host-op8 (R81): P4. -/
theorem test_decode_host : decode cfgT .host [0x00#8] = .instr .hostNop [] ∧
    decode cfgT .host [0x01#8, 0x01#8, 0x42#8, 0x01#8, 0x00#8] = .instr (.hostDispatch 0x01#8 0x42#8 [0x00#8]) [] ∧
    decode cfgT .host [0x02#8, 0x01#8] = .instr (.hostCancel 0x01#8) [] ∧ decode cfgT .host [0x03#8] = .instr .hostSeqNext [] ∧
    decode cfgT .host [0x04#8] = .instr (.hostReserved 0x04#8) [] := by decide
/-- codec-sel2 (R84); the operand bytes are the model's (log 8). -/
theorem test_decode_codec : decode cfgT .codec [0x00#8, 0x01#8] = .instr (.codecEncode .ack) [] ∧
    decode cfgT .codec [0x01#8, 0x06#8] = .instr (.codecDecode [0x06#8]) [] ∧
    decode cfgT .codec [0x02#8, 0x06#8] = .instr (.codecExtract [0x06#8]) [] ∧
    decode cfgT .codec [0x03#8, 0x04#8, 0x42#8] = .instr (.codecValidate (.unknown 0x42#8)) [] := by decide
/-- The transport port and the strobes (R231). -/
theorem test_decode_ports : decode cfgT .transport [0x15#8, 0x06#8] = .instr (.evRxByte 0x15#8) [0x06#8] ∧
    decode cfgT .timeBase [] = .instr .evTick [] ∧ decode cfgT .resetInput [] = .instr .evReset [] := by decide
/-- Bare table words (log 11). -/
theorem test_table_words : decodeTableWord 16 0x0100 = some (.sofMalformedLen01 none) ∧
    decodeTableWord 16 0x0102 = some (.sofMalformedLen2 0#8 0#8) ∧
    decodeTableWord 16 0x0103 = some (.sof ⟨0#8, 0#8, [], 0#8⟩) ∧ decodeTableWord 8 0x15 = some .nak ∧
    decodeTableWord 8 0x18 = some .can ∧ decodeTableWord 3 6 = some .evReset ∧
    decodeTableWord 2 1 = some (.codecDecode [0#8, 0#8, 0#8, 0#8]) := by decide
/-- A bare word is what the next step runs, from State.reset. -/
theorem test_step_runs_word : step (State.reset.withFetchWord 8 0x15) = exec .nak State.reset := by rfl

/-! ## One step on a small state, at most two for each instruction -/

/-- L2.6, head 0x15 answered. -/
theorem test_sof_settles : outs (exec (.sof res15) (started [req 0x00#8 0x15#8])) =
    [.tx [0x06#8], .compl ⟨0x00#8, .success, [res15]⟩] := by decide
/-- L2.6, wrong checksum. -/
theorem test_sof_invalid : outs (exec (.sof ⟨0x01#8, 0x15#8, [], 0xE9#8⟩) (started [req 0x00#8 0x15#8])) =
    [.tx [0x15#8], .log (.checksumInvalid 0x15#8 0xE9#8)] := by decide
theorem test_malformed01 : outs (exec (.sofMalformedLen01 none) idle) = [.tx [0x15#8], .log (.malformedFrame 0x00#8)] := by decide
theorem test_malformed2 : outs (exec (.sofMalformedLen2 0xAA#8 0xBB#8) idle) = [.tx [0x15#8], .log (.malformedFrame 0x02#8)] := by
  decide
theorem test_ack : exec .ack idle = .next idle := by rfl
theorem test_nak : outs (exec .nak idle) = [.log (.deliveryAnomaly 0x15#8)] := by decide
theorem test_can : outs (exec .can (started [req 0x00#8 0x15#8])) = [.log (.deliveryAnomaly 0x18#8)] := by decide
theorem test_unknownHeader : outs (exec (.unknownHeader 0x42#8) idle) = [.log (.unknownHeader 0x42#8)] := by decide
/-- L2.7, multi, REQ first. -/
theorem test_kindReq : outs (exec (.kindReq 0x13#8 [0x01#8, 0x00#8]) (started [req 0x00#8 0x13#8])) =
    [.tx [0x06#8], .compl ⟨0x00#8, .success, [⟨0x01#8, 0x13#8, [0x01#8, 0x00#8], 0xE9#8⟩]⟩] := by decide
/-- L1.7: the Response frame is acknowledged and retained. -/
theorem test_kindRes : outs (exec (.kindRes 0x13#8 [0x01#8]) (started [req 0x00#8 0x13#8])) = [.tx [0x06#8]] ∧
    (queueAfter (exec (.kindRes 0x13#8 [0x01#8]) (started [req 0x00#8 0x13#8]))).map (·.resp) =
      [[⟨0x02#8, 0x13#8, [0x01#8], 0xEB#8⟩]] := by decide
/-- L2.7, single, other kind. -/
theorem test_kindOther : outs (exec (.kindOther 0x03#8 0x15#8 []) (started [req 0x00#8 0x15#8])) =
    [.tx [0x06#8], .compl ⟨0x00#8, .success, [⟨0x03#8, 0x15#8, [], 0xEA#8⟩]⟩] := by decide
theorem test_evNop : exec .evNop idle = .next idle := by rfl
/-- L2.6, the last byte of a frame. -/
theorem test_evRxByte : outs (exec (.evRxByte 0xEF#8) { idle with rxbuf := [0x01#8, 0x05#8, 0x01#8, 0x13#8, 0x07#8, 0x00#8] }) =
    [.tx [0x06#8], .unsol ⟨0x01#8, 0x13#8, [0x07#8, 0x00#8], 0xEF#8⟩] := by decide
/-- L1.9, tick 2. -/
theorem test_evTick_retransmit : outs (exec .evTick { started [req 0x00#8 0x20#8] with rtCount := 1 }) =
    [.tx [0x01#8, 0x03#8, 0x01#8, 0x20#8, 0xDD#8], .log (.retransmit 0x00#8 1)] := by decide
/-- P3, tick 11. -/
theorem test_evTick_timeout : outs (exec .evTick { started [req 0x00#8 0x20#8, req 0x01#8 0x15#8] with
      rtCount := 0, retriesLeft := 0, htArmed := true, htCount := 1 }) =
    [.log (.hardTimeout 0x00#8), .compl ⟨0x00#8, .cancelled, []⟩, .tx [0x01#8, 0x03#8, 0x01#8, 0x15#8, 0xE8#8]] := by decide
/-- L1.6, first event. -/
theorem test_evDispatch : outs (exec (.evDispatch 0x01#8 0x15#8 []) idle) =
    [.reply (.accepted 0x00#8), .tx [0x01#8, 0x03#8, 0x01#8, 0x15#8, 0xE8#8]] := by decide
/-- L2.7, too long. -/
theorem test_evDispatch_tooLong : outs (exec (.evDispatch 0x01#8 0x20#8 (zeros 253)) idle) =
    [.reply (.refused .length), .log (.requestTooLong 253)] := by
  simp [zeros_length, exec, execEvDispatch, dispatch, queueHasRoom, dispatchEnabled, payloadMax, idle, State.powerOn, cfgT, outs, State.raise,
    State.emit]
/-- L2.7, cancel head. -/
theorem test_evCancel_head : outs (exec (.evCancel 0x00#8) (started [req 0x00#8 0x20#8, req 0x01#8 0x21#8])) =
    [.reply (.accepted 0x00#8), .log (.externalCancel 0x00#8), .compl ⟨0x00#8, .cancelled, []⟩,
     .tx [0x01#8, 0x03#8, 0x01#8, 0x21#8, 0xDC#8]] := by decide
/-- L2.7, cancel non-head. -/
theorem test_evCancel_behind : outs (exec (.evCancel 0x01#8) (started [req 0x00#8 0x42#8, req 0x01#8 0x42#8])) =
    [.reply (.accepted 0x01#8), .compl ⟨0x01#8, .cancelled, []⟩, .log (.externalCancel 0x01#8)] := by decide
/-- L1.5, number 127. -/
theorem test_evSeqNext : outs (exec .evSeqNext { idle with seq := 126 }) = [.reply (.seqValue 1)] := by decide
/-- P4, step 9. -/
theorem test_evReset : exec .evReset { started [req 0x00#8 0x42#8, req 0x02#8 0x20#8] with rxbuf := [0x01#8, 0x05#8] } =
    .next idle := by rfl
theorem test_evReserved : outs (exec .evReserved idle) = [.reply (.refused .opcode), .log (.reservedCommand 0x07#8)] := by decide
theorem test_hostNop : exec .hostNop idle = .next idle := by rfl
/-- L1.6, second event: tag 1, and nothing is transmitted. -/
theorem test_hostDispatch : outs (exec (.hostDispatch 0x01#8 0x20#8 []) (started [req 0x00#8 0x15#8])) =
    [.reply (.accepted 0x01#8)] := by decide
/-- L2.7, tag wrap: next_tag is 3, tags 1 and 3 are in use, then 0 is free. -/
theorem test_hostDispatch_wrap :
    outs (exec (.hostDispatch 0x01#8 0x24#8 []) { started [req 0x03#8 0x23#8] with nextTag := 3 }) = [.reply (.accepted 0x00#8)] := by
  decide
/-- L2.7, cancel unknown. -/
theorem test_hostCancel : outs (exec (.hostCancel 0xC8#8) idle) = [.reply (.accepted 0xC8#8)] := by decide
theorem test_hostSeqNext : outs (exec .hostSeqNext idle) = [.reply (.seqValue 1)] := by decide
/-- L2.7, reserved opcode. -/
theorem test_hostReserved : outs (exec (.hostReserved 0x04#8) idle) =
    [.reply (.refused .opcode), .log (.reservedCommand 0x04#8)] := by decide
/-- L2.2: the checksum field is ignored; 253 payload bytes are refused. -/
theorem test_codecEncode : outs (exec (.codecEncode (.sof ⟨0x01#8, 0x15#8, [], 0x00#8⟩)) idle) =
    [.codec (.encoded (.bytes [0x01#8, 0x03#8, 0x01#8, 0x15#8, 0xE8#8]))] := by decide
/-- L2.3. -/
theorem test_codecDecode : outs (exec (.codecDecode [0x01#8, 0x01#8, 0xAA#8]) idle) =
    [.codec (.decoded (some (.malformed 0x01#8 [0x01#8, 0x01#8, 0xAA#8], 3)))] := by decide
/-- L2.4. -/
theorem test_codecExtract : outs (exec (.codecExtract [0x42#8, 0x15#8, 0x01#8, 0x00#8, 0x06#8]) idle) =
    [.codec (.extracted [.unknown 0x42#8, .nak, .malformed 0x00#8 [0x01#8, 0x00#8], .ack] [])] := by decide
/-- L2.5. -/
theorem test_codecValidate :
    outs (exec (.codecValidate (.sof ⟨0x02#8, 0x20#8, [0xC1#8, 0xFF#8, 0xEE#8, 0x01#8, 0x01#8], 0x04#8⟩)) idle) =
      [.codec (.validated false)] := by decide

/-- R82: the refusal of L2.7 as bytes, and the wrapped sequence value. -/
theorem test_replyBytes : replyBytes (.refused .opcode) = [0x01#8, 0x02#8] ∧ replyBytes (.seqValue 126) = [0x02#8, 0x7E#8] := by
  decide
/-- R222, R223. -/
theorem test_logBytes : logBytes (.requestTooLong 253) = [0x0A#8, 0xFD#8] ∧
    complBytes ⟨0x01#8, .cancelled, []⟩ = [0x01#8, 0x01#8, 0x00#8] := by decide
/-- R86. -/
theorem test_frameText : frameText cfgT (.sof ⟨0x02#8, 0x20#8, [0x00#8, 0xFF#8], 0x00#8⟩) = "SOF(RES, 0x20, [00, FF])" := by decide

/-! ## Witnesses: the hypotheses of the obligations can be met -/

theorem witness_DecodeOfEncodeIsTheInstruction : Cfg.default.valid = true ∧ cfgT.valid = true ∧
    (Instr.sof ⟨0x01#8, 0x20#8, zeros 252, 0x21#8⟩).wellFormed cfgT = true ∧
    (Instr.unknownHeader 0x00#8).wellFormed cfgT = true ∧ (Instr.kindOther 0x00#8 0x20#8 []).wellFormed cfgT = true ∧
    (Instr.hostDispatch 0x01#8 0x20#8 (zeros 255)).wellFormed cfgT = true ∧
    (Instr.hostReserved 0x04#8).wellFormed cfgT = true ∧ (Instr.hostReserved 0xFF#8).wellFormed cfgT = true ∧
    (Instr.evReset).wellFormed cfgT = true ∧ (Instr.codecEncode .nak).wellFormed cfgT = true := by
  simp [zeros_length, Instr.wellFormed, payloadMax, namedHeaders]; decide
theorem witness_EncodeOfDecodeIsTheBytes : ∀ p ∈ [Port.wire, .kind, .event, .host, .codec],
    ∃ bs i rest, decode cfgT p bs = .instr i rest := by
  simp only [List.mem_cons, List.not_mem_nil, or_false, forall_eq_or_imp, forall_eq]
  exact ⟨⟨[0x06#8], _, _, rfl⟩, ⟨[0x01#8, 0x13#8], _, _, rfl⟩, ⟨[0x00#8], _, _, rfl⟩, ⟨[0x00#8], _, _, rfl⟩, ⟨[0x01#8], _, _, rfl⟩⟩
/-- L2.1: any order of C0 FF EE 01 01. -/
theorem witness_ChecksumIsOrderFree : [0x01#8, 0xC0#8, 0xEE#8, 0x20#8, 0xFF#8, 0x02#8, 0x01#8, 0x08#8, 0xFF#8].Perm
    ([0xFF#8, BitVec.ofNat 8 (5 + 3), 0x02#8, 0x20#8] ++ [0xC0#8, 0xFF#8, 0xEE#8, 0x01#8, 0x01#8]) := by decide
theorem witness_ValidIffBytesFoldToFF : decodeFrame [0x01#8, 0x03#8, 0x01#8, 0x15#8, 0xE8#8] =
    some (.sof ⟨0x01#8, 0x15#8, [], 0xE8#8⟩, 5) ∧ decodeFrame [0x01#8, 0x03#8, 0x01#8, 0x15#8, 0xE9#8] =
    some (.sof ⟨0x01#8, 0x15#8, [], 0xE9#8⟩, 5) := by decide
theorem witness_FrameRoundTrip : (zeros 252).length ≤ 252 ∧
    (0xE8#8 : Byte) = checksum 0x01#8 0x15#8 [] ∧ (0x42#8 : Byte) ∉ [0x01#8, 0x06#8, 0x15#8, 0x18#8] :=
  ⟨by simp [zeros_length], by decide, by decide⟩
theorem witness_DecodePrefix : decodeFrame [0x06#8] = some (.ack, 1) ∧ decodeFrame [0x01#8, 0xFF#8] = none ∧
    [0x01#8, 0xFF#8] ≠ [] := by decide
theorem witness_OneFlippedBitIsDetected : (zeros 252).length ≤ 252 ∧ 2 ≤ 256 ∧
    256 < (zeros 252).length + 5 ∧ 7 < 8 := by simp [zeros_length]
theorem witness_EncodedLength : encodeFrame (.sof ⟨0x01#8, 0x15#8, [], 0x00#8⟩) =
    .bytes [0x01#8, 0x03#8, 0x01#8, 0x15#8, 0xE8#8] := by decide
theorem witness_InvalidSofIsNaked : (0xE9#8 : Byte) ≠ checksum 0x01#8 0x15#8 [] := by decide
theorem witness_PresentsValidSof : PresentsValidSof cfgT (.sof res15) res15 ∧
    PresentsValidSof cfgT (.kindReq 0x13#8 []) (sofOf 0x01#8 0x13#8 []) ∧
    PresentsValidSof cfgT (.kindRes 0x13#8 []) (sofOf 0x02#8 0x13#8 []) ∧
    PresentsValidSof cfgT (.kindOther 0x03#8 0x13#8 []) (sofOf 0x03#8 0x13#8 []) :=
  ⟨.sof _ (by decide), .kindReq _ _, .kindRes _ _, .kindOther _ _ _⟩
/-- Both ways to settle: a head that is not multi, and a multi head with kind REQ. -/
theorem witness_MatchingFrameSettlesHead :
    (PresentsValidSof cfgT (.sof res15) res15 ∧ (started [req 0x00#8 0x15#8]).queue = [req 0x00#8 0x15#8] ∧
      res15.func = (req 0x00#8 0x15#8).func ∧ (req 0x00#8 0x15#8).multi = false) ∧
    (PresentsValidSof cfgT (.kindReq 0x13#8 []) (sofOf 0x01#8 0x13#8 []) ∧
      (req 0x00#8 0x13#8).multi = true ∧ (sofOf 0x01#8 0x13#8 []).kind = cfgT.kindReq) :=
  ⟨⟨witness_PresentsValidSof.1, by decide⟩, ⟨.kindReq _ _, by decide⟩⟩
/-- The boundary of both statements on retained frames: with P_RESP_DEPTH 3, one is retained at 1, and dropped at 2. -/
theorem witness_NonRequestFrameIsRetained : ∃ e, PresentsValidSof cfgT (.kindRes 0x13#8 [0x00#8]) (sofOf 0x02#8 0x13#8 [0x00#8]) ∧
    (started [e]).queue = e :: [] ∧ (sofOf 0x02#8 0x13#8 [0x00#8]).func = e.func ∧ e.multi = true ∧
    (sofOf 0x02#8 0x13#8 [0x00#8]).kind ≠ cfgT.kindReq ∧ e.resp.length + 1 < cfgT.respDepth :=
  ⟨{ req 0x00#8 0x13#8 with resp := [sofOf 0x02#8 0x13#8 [0x00#8]] }, .kindRes _ _, by decide⟩
theorem witness_ResponseOverflowIsLogged : ∃ e, PresentsValidSof cfgT (.kindRes 0x13#8 [0x00#8]) (sofOf 0x02#8 0x13#8 [0x00#8]) ∧
    (started [e]).queue = e :: [] ∧ (sofOf 0x02#8 0x13#8 [0x00#8]).func = e.func ∧ e.multi = true ∧
    (sofOf 0x02#8 0x13#8 [0x00#8]).kind ≠ cfgT.kindReq ∧ cfgT.respDepth ≤ e.resp.length + 1 :=
  ⟨{ req 0x00#8 0x13#8 with resp := [sofOf 0x02#8 0x13#8 [0x00#8], sofOf 0x02#8 0x13#8 [0x00#8]] }, .kindRes _ _, by decide⟩
theorem witness_UnmatchedFrameIsUnsolicited : (PresentsValidSof cfgT (.sof res20) res20 ∧
    ∀ e q, idle.queue = e :: q → res20.func ≠ e.func) ∧
    (∀ e q, (started [req 0x00#8 0x15#8]).queue = e :: q → res20.func ≠ e.func) := by
  refine ⟨⟨.sof _ (by decide), by simp [idle, State.powerOn]⟩, ?_⟩
  intro e q h
  obtain ⟨rfl, -⟩ : req 0x00#8 0x15#8 = e ∧ [] = q := by simpa [started] using h
  decide
theorem witness_MultiResponseLaw :
    (2 ≤ cfgT.respDepth ∧ cfgT.kindReq ≠ cfgT.kindRes ∧ (started [req 0x00#8 0x13#8]).queue = req 0x00#8 0x13#8 :: [] ∧
      (req 0x00#8 0x13#8).multi = true ∧ (req 0x00#8 0x13#8).resp = [] ∧
      validateChecksum (.sof ⟨0x02#8, 0x13#8, [0x01#8], 0xEB#8⟩) = true ∧
      validateChecksum (.sof ⟨0x01#8, 0x13#8, [0x07#8, 0x00#8], 0xEF#8⟩) = true ∧
      (0x02#8 : Byte) = cfgT.kindRes ∧ (0x01#8 : Byte) = cfgT.kindReq) ∧
    ((started [req 0x00#8 0x15#8]).queue = req 0x00#8 0x15#8 :: [] ∧ (req 0x00#8 0x15#8).multi = false ∧
      (req 0x00#8 0x15#8).resp = [] ∧ validateChecksum (.sof ⟨0x01#8, 0x15#8, [], 0xE8#8⟩) = true) := by decide
theorem incomplete_nil : incompleteBuffer [] := .inl rfl
theorem incomplete_four : incompleteBuffer [0x01#8, 0x03#8, 0x01#8, 0x15#8] := .inr ⟨rfl, .inr (by decide)⟩
theorem witness_RxByteRunsTheCompletedFrame :
    (incompleteBuffer idle.rxbuf ∧ decodeFrame (idle.rxbuf ++ [0x01#8]) = none) ∧
    (incompleteBuffer [0x01#8, 0x03#8, 0x01#8, 0x15#8] ∧
      decodeFrame ([0x01#8, 0x03#8, 0x01#8, 0x15#8] ++ [0xE8#8]) = some (.sof ⟨0x01#8, 0x15#8, [], 0xE8#8⟩, 5)) :=
  ⟨⟨incomplete_nil, by decide⟩, ⟨incomplete_four, by decide⟩⟩
theorem witness_AtMostOneFramePerByte : incompleteBuffer [0x01#8, 0x03#8, 0x01#8, 0x15#8] ∧ incompleteBuffer [] ∧
    (0x06#8 : Byte) ≠ 0x01#8 := ⟨incomplete_four, incomplete_nil, by decide⟩
theorem witness_ChunkingLaw : incompleteBuffer idle.rxbuf ∧
    incompleteBuffer { idle with rxbuf := [0x01#8, 0x03#8, 0x01#8, 0x15#8] }.rxbuf := ⟨incomplete_nil, incomplete_four⟩
theorem witness_DispatchIntoIdleTransmits : idle.queue = [] ∧ 1 ≤ idle.cfg.queueDepth ∧
    (zeros 252).length ≤ 252 ∧ Instr.hostDispatch 0x01#8 0x20#8 [] ∈ dispatchRows 0x01#8 0x20#8 [] :=
  ⟨rfl, by decide, by simp [zeros_length], by decide⟩
theorem witness_DispatchBehindBusyQueues : (started [req 0x00#8 0x15#8]).cfg.valid = true ∧
    (started [req 0x00#8 0x15#8]).nextTag < 2 ^ cfgT.tagWidth ∧ (started [req 0x00#8 0x15#8]).queue ≠ [] ∧
    (started [req 0x00#8 0x15#8]).queue.length < cfgT.queueDepth ∧ ([] : List Byte).length ≤ 252 := by decide
theorem witness_DispatchTooLongIsRefused : idle.queue.length < idle.cfg.queueDepth ∧
    252 < (zeros 253).length := ⟨by decide, by simp [zeros_length]⟩
theorem witness_DispatchIsHeldWhenFull : cfgT.queueDepth ≤ (started [req 0x00#8 0x42#8, req 0x01#8 0x42#8]).queue.length := by
  decide
theorem witness_CancelOfHeadSettlesIt : (started [req 0x00#8 0x20#8, req 0x01#8 0x21#8]).queue =
    req 0x00#8 0x20#8 :: [req 0x01#8 0x21#8] ∧ Instr.evCancel 0x00#8 ∈ cancelRows (req 0x00#8 0x20#8).tag := by decide
theorem witness_CancelBehindHeadRemovesIt : (started [req 0x00#8 0x42#8, req 0x01#8 0x42#8]).queue =
    req 0x00#8 0x42#8 :: ([] ++ req 0x01#8 0x42#8 :: []) ∧ (req 0x00#8 0x42#8).tag ≠ (req 0x01#8 0x42#8).tag := by decide
theorem witness_CancelOfUnknownTagOnlyReplies : (0xC8#8 : Byte) ∉ tagsInUse idle.queue ∧
    (0x01#8 : Byte) ∉ tagsInUse (started [req 0x00#8 0x15#8]).queue := by decide
theorem witness_CompletionsAccountForEveryTag : Instr.evDispatch 0x01#8 0x15#8 [] ≠ .evReset ∧
    completes (exec (.evDispatch 0x01#8 0x15#8 []) idle) = true := by decide
theorem witness_TransmissionsAreAcksNaksAndRequests :
    completes (exec .evTick { started [req 0x00#8 0x20#8] with rtCount := 1 }) = true ∧
    incompleteBuffer (started [req 0x00#8 0x20#8]).rxbuf := ⟨by decide, .inl rfl⟩
theorem witness_TickCountsDown : idle.queue = [] ∧
    ((started [req 0x00#8 0x20#8]).queue ≠ [] ∧ (started [req 0x00#8 0x20#8]).htArmed = false ∧
      2 ≤ (started [req 0x00#8 0x20#8]).rtCount) ∧
    (let s : State := { started [req 0x00#8 0x20#8] with rtCount := 0, retriesLeft := 0, htArmed := true, htCount := 2 }
     s.queue ≠ [] ∧ s.htArmed = true ∧ 2 ≤ s.htCount) := by decide
theorem witness_ExpiryRetransmits : let s : State := { started [req 0x00#8 0x20#8] with rtCount := 1, retriesLeft := 1 }
    s.queue = req 0x00#8 0x20#8 :: [] ∧ s.htArmed = false ∧ s.rtCount = 1 ∧ 1 ≤ s.retriesLeft := by decide
theorem witness_ExhaustionArmsHardTimeout : let s : State := { started [req 0x00#8 0x20#8] with rtCount := 1, retriesLeft := 0 }
    s.queue = req 0x00#8 0x20#8 :: [] ∧ s.htArmed = false ∧ s.rtCount = 1 ∧ s.retriesLeft = 0 := by decide
theorem witness_HardTimeoutCancelsHead :
    let s : State := { started [req 0x00#8 0x20#8] with rtCount := 0, retriesLeft := 0, htArmed := true, htCount := 1 }
    s.queue = req 0x00#8 0x20#8 :: [] ∧ s.htArmed = true ∧ s.htCount = 1 := by decide
theorem witness_NoReplyTimeline : let s := started [req 0x00#8 0x20#8]
    s.cfg.valid = true ∧ s.queue = req 0x00#8 0x20#8 :: [] ∧ s.htArmed = false ∧ s.rtCount = s.cfg.retryInterval ∧
    s.retriesLeft = s.cfg.retryCount ∧ 5 < (s.cfg.retryCount + 1) * s.cfg.retryInterval ∧
    (s.cfg.retryCount + 1) * s.cfg.retryInterval ≤ 6 ∧
    10 < (s.cfg.retryCount + 1) * s.cfg.retryInterval + s.cfg.hardTimeout := by decide
theorem witness_TimerIsNotResetByReception : validateChecksum (.sof ⟨0x01#8, 0x15#8, [], 0xE9#8⟩) = false ∧
    decodeFrame ((started [req 0x00#8 0x13#8]).rxbuf ++ [0x01#8]) = none ∧
    (∃ f, PresentsValidSof (started [req 0x00#8 0x15#8]).cfg (.sof res20) f ∧
      ∀ e q, (started [req 0x00#8 0x15#8]).queue = e :: q → f.func ≠ e.func) ∧
    ∃ f e q, PresentsValidSof (started [req 0x00#8 0x13#8]).cfg (.kindRes 0x13#8 [0x01#8]) f ∧
      (started [req 0x00#8 0x13#8]).queue = e :: q ∧ f.func = e.func ∧ e.multi = true ∧
      f.kind ≠ (started [req 0x00#8 0x13#8]).cfg.kindReq :=
  ⟨by decide, by decide, ⟨_, .sof _ (by decide), witness_UnmatchedFrameIsUnsolicited.2⟩, _, _, _, .kindRes _ _, rfl, by decide⟩

/-- A good state with a head: the invariants of R34 are met with a queue that is not empty. -/
theorem good_started : GoodState (started [req 0x00#8 0x20#8, req 0x01#8 0x15#8]) := by
  constructor
  case bufferIncomplete => exact incomplete_nil
  case entriesGood =>
    intro e he
    have : e = req 0x00#8 0x20#8 ∨ e = req 0x01#8 0x15#8 := by simpa [started] using he
    rcases this with rfl | rfl <;> exact ⟨by decide, by decide, by decide, by decide, by simp [req], by simp [req], by simp [req]⟩
  all_goals decide
theorem witness_BoundedCompletion : ∃ t, GoodState (started [req 0x00#8 0x20#8, req 0x01#8 0x15#8]) ∧
    (started [req 0x00#8 0x20#8, req 0x01#8 0x15#8]).queue[1]? = some (req 0x01#8 0x15#8) ∧
    .evReset ∉ List.replicate 22 Instr.evTick ∧
    runEvents (List.replicate 22 .evTick) (started [req 0x00#8 0x20#8, req 0x01#8 0x15#8]) = .next t ∧
    (1 + 1) * completionBound (started [req 0x00#8 0x20#8, req 0x01#8 0x15#8]).cfg ≤
      (List.replicate 22 Instr.evTick).count .evTick :=
  ⟨_, good_started, rfl, by decide, rfl, by decide⟩
theorem witness_SeqNextAdvances : Instr.hostSeqNext ∈ [Instr.evSeqNext, .hostSeqNext] := by decide
theorem witness_SequenceLaw : idle.seq = 0 := by decide
/-- The premises of each clause, for an instruction that meets them. -/
theorem witness_OnlyItsEventsWriteEachElement : completes (exec .evTick idle) = true ∧
    Instr.evTick ∉ [Instr.evSeqNext, .hostSeqNext, .evReset] ∧ ¬ isDispatch .evTick ∧ Instr.evTick ≠ .evReset ∧
    (∀ b, Instr.evTick ≠ .evRxByte b) ∧ ¬ writesQueue .evSeqNext ∧
    (∃ t, exec (.kindRes 0x13#8 []) (started [req 0x00#8 0x13#8]) = .next t ∧ (started [req 0x00#8 0x13#8]).queue ≠ [] ∧
      t.compl = (started [req 0x00#8 0x13#8]).compl) :=
  ⟨by decide, by decide, id, by decide, by simp, id, _, rfl, by decide, by decide⟩
theorem witness_StepKeepsInvariants : ∃ t,
    GoodState ((started [req 0x00#8 0x20#8, req 0x01#8 0x15#8]).offer ⟨.timeBase, []⟩) ∧
    step ((started [req 0x00#8 0x20#8, req 0x01#8 0x15#8]).offer ⟨.timeBase, []⟩) = .next t :=
  ⟨_, good_setOffered _ good_started, rfl⟩
theorem witness_PowerOnMeetsInvariants : cfgT.valid = true := by decide
theorem witness_AvailableUntilConsumed :
    let s : State := { idle with out := [.log (.unknownHeader 0x42#8)] }
    consumedWithin s ∧ available .log s = true ∧ Trace.unsol ≠ Trace.log ∧
    (∃ t, exec .nak idle = .next t ∧ consumedWithin idle ∧ traceLength .log idle < traceLength .log t) ∧
    available .log (s.consume .log) = false :=
  ⟨⟨by decide, by decide, by decide, by decide⟩, by decide, by decide,
    ⟨_, rfl, ⟨by decide, by decide, by decide, by decide⟩, by decide⟩, by decide⟩
/-- R228: the seven events of one cycle, offered in the reverse of the order, and an unranked one. -/
theorem test_clockedOrder : clockedOrder [.evReserved, .hostNop, .evSeqNext, .evTick, .hostDispatch 0x01#8 0x15#8 [], .evCancel 0x00#8,
      .evRxByte 0x06#8, .evReset] =
    [.evReset, .evRxByte 0x06#8, .evCancel 0x00#8, .hostDispatch 0x01#8 0x15#8 [], .evTick, .evSeqNext, .hostNop, .evReserved] := by
  decide
theorem witness_CompletionBytesReadBack : ∀ f ∈ (⟨0x00#8, .success, [res15, res20]⟩ : Completion).frames,
    f.payload.length ≤ 252 ∧ validateChecksum (.sof f) = true := by decide
theorem witness_StepRunsTheDecodedInstruction :
    let s := (idle.offer ⟨.host, [0x01#8, 0x01#8, 0x15#8, 0x00#8, 0x03#8]⟩).offer ⟨.timeBase, []⟩
    s.cfg.valid = true ∧ s.offered = ⟨.host, [0x01#8, 0x01#8, 0x15#8, 0x00#8, 0x03#8]⟩ :: [⟨.timeBase, []⟩] ∧
    decode s.cfg .host [0x01#8, 0x01#8, 0x15#8, 0x00#8, 0x03#8] = .instr (.hostDispatch 0x01#8 0x15#8 []) [0x03#8] ∧
    s.queue.length < s.cfg.queueDepth := by decide
/-- L2.7, held when full: a third DISPATCH is offered and a TICK comes behind it, or a CANCEL in the same input. -/
theorem witness_StepPassesHeldDispatches :
    (let s := ((started [req 0x00#8 0x42#8, req 0x01#8 0x42#8]).offer ⟨.host, [0x01#8, 0x01#8, 0x20#8, 0x00#8]⟩).offer ⟨.timeBase, []⟩
     s.cfg.valid = true ∧ s.cfg.queueDepth ≤ s.queue.length ∧
     s.offered = [⟨.host, [0x01#8, 0x01#8, 0x20#8, 0x00#8]⟩] ++ ⟨.timeBase, []⟩ :: [] ∧
     decode s.cfg .host [0x01#8, 0x01#8, 0x20#8, 0x00#8] = .instr (.hostDispatch 0x01#8 0x20#8 []) [] ∧
     isDispatch (.hostDispatch 0x01#8 0x20#8 []) ∧ decode s.cfg .timeBase [] = .instr .evTick [] ∧ ¬ isDispatch .evTick) ∧
    (let s := (started [req 0x00#8 0x42#8, req 0x01#8 0x42#8]).offer
       ⟨.host, [0x01#8, 0x01#8, 0x20#8, 0x00#8] ++ [0x02#8, 0x01#8]⟩
     s.cfg.valid = true ∧ s.cfg.queueDepth ≤ s.queue.length ∧
     s.offered = [] ++ ⟨.host, [0x01#8, 0x01#8, 0x20#8, 0x00#8] ++ [0x02#8, 0x01#8]⟩ :: [] ∧
     decode s.cfg .host ([0x01#8, 0x01#8, 0x20#8, 0x00#8] ++ [0x02#8, 0x01#8]) =
       .instr (.hostDispatch 0x01#8 0x20#8 []) [0x02#8, 0x01#8]) :=
  ⟨⟨by decide, by decide, by decide, by decide, trivial, by decide, id⟩, by decide⟩
/-- Log 25: a CANCEL behind a held DISPATCH in the same input runs, and the DISPATCH stays offered. -/
theorem test_cancel_passes_in_same_input :
    let s := (started [req 0x00#8 0x42#8, req 0x01#8 0x42#8]).offer
      ⟨.host, [0x01#8, 0x01#8, 0x20#8, 0x00#8, 0x02#8, 0x01#8]⟩
    step s = exec (.hostCancel 0x01#8) (s.setOffered [⟨.host, [0x01#8, 0x01#8, 0x20#8, 0x00#8]⟩]) := by rfl
/-- Log 25: a CANCEL split over the held DISPATCH's input and the next one is put together. -/
theorem test_cancel_split_behind_held :
    let s := ((started [req 0x00#8 0x42#8, req 0x01#8 0x42#8]).offer
      ⟨.host, [0x01#8, 0x01#8, 0x20#8, 0x00#8, 0x02#8]⟩).offer ⟨.host, [0x01#8]⟩
    step s = exec (.hostCancel 0x01#8) (s.setOffered [⟨.host, [0x01#8, 0x01#8, 0x20#8, 0x00#8]⟩]) := by rfl
theorem witness_StepHoldsWhenNothingCanRun : (idle.cfg.valid = true ∧ idle.offered = []) ∧
    cfgT.queueDepth ≤ (started [req 0x00#8 0x42#8, req 0x01#8 0x42#8]).queue.length ∧
    OnlyDispatches cfgT .host [0x01#8, 0x01#8, 0x20#8, 0x00#8, 0x01#8, 0x01#8, 0x21#8, 0x00#8] :=
  ⟨by decide, by decide, .more _ [0x01#8, 0x01#8, 0x21#8, 0x00#8] (.hostDispatch 0x01#8 0x20#8 []) rfl trivial
    (.one _ (.hostDispatch 0x01#8 0x21#8 []) rfl trivial)⟩
theorem witness_IncompleteCommandIsContinued :
    let s := (idle.offer ⟨.host, [0x01#8, 0x01#8]⟩).offer ⟨.host, [0x15#8, 0x00#8]⟩
    s.cfg.valid = true ∧ s.offered = ⟨.host, [0x01#8, 0x01#8]⟩ :: ⟨.host, [0x15#8, 0x00#8]⟩ :: [] ∧
    decode s.cfg .host [0x01#8, 0x01#8] = .incomplete ∧
    decode s.cfg .host ([0x01#8, 0x01#8] ++ [0x15#8, 0x00#8]) = .instr (.hostDispatch 0x01#8 0x15#8 []) [] ∧
    s.queue.length < s.cfg.queueDepth := by decide
theorem witness_CodecUnitShowsItsResult : ∀ g, Frame.sof res15 = .sof g → g.payload.length ≤ 252 := by
  rintro _ ⟨⟩
  decide
/-- A clocked event that R228 does not rank. -/
theorem witness_ClockedOrderSortsTheCycle : (encode Cfg.default .ack).port ∈ [Port.wire, .kind, .codec] ∧
    Instr.evCancel 0x00#8 ∈ cancelRows 0x00#8 ∧ Instr.hostDispatch 0x01#8 0x15#8 [] ∈ dispatchRows 0x01#8 0x15#8 [] := by decide
theorem witness_StepStopsOnlyOutsideTheRules : { cfgT with retryInterval := 0 }.valid = false ∧ cfgT.valid = true ∧
    decode cfgT .event [0x08#8] = .invalid .selectorRange ∧ decode cfgT .timeBase [] = .instr .evTick [] := by decide

end Sys2Proof.Tests
end

section
/-! What `exec` does to the state, said once for all rows (`ExecEffect`), and from it the statements of 10_state.md: the
invariants of R34 hold at power-on and are kept by every step, and each state element is written by its own events only. -/

namespace Sys2Proof.Machine

open Sys2Proof.Claims

/-! ### what an instruction does, one case per group of rows -/

/-- The state in which an instruction leaves `s`. The rows that write nothing but the traces are one case. -/
inductive ExecEffect (s : State) : Instr → State → Prop where
  | emits (i : Instr) (new : List Emission) : ExecEffect s i (new.foldl State.emit s)
  | validSof {i : Instr} (f : Sof) (hv : validateChecksum (.sof f) = true) (hi : writesQueue i) : ExecEffect s i (sofValid f s)
  | rxByte (b : Byte) : ExecEffect s (.evRxByte b) (rxByte b s)
  | tick : ExecEffect s .evTick (tick s)
  | dispatch {i : Instr} (again : Input) (kind func : Byte) (payload : List Byte) (hi : isDispatch i) :
      ExecEffect s i (dispatch again kind func payload s)
  | cancel {i : Instr} (tag : Byte) (hi : writesQueue i) : ExecEffect s i (cancel tag s)
  | seqNext {i : Instr} (hi : i ∈ [Instr.evSeqNext, .hostSeqNext]) : ExecEffect s i (seqNext s)
  | reset : ExecEffect s .evReset (resetS s)

/-- The SOF row is a valid frame received, or with a wrong checksum emissions alone (R131, R133). -/
theorem execEffect_sof (f : Sof) (s : State) : ExecEffect s (.sof f) (sofReceived f s) := by
  cases hv : validateChecksum (.sof f) with
  | true => rw [sofReceived_valid hv]; exact .validSof f hv trivial
  | false => rw [sofReceived_invalid hv]; exact .emits _ [.tx [0x15#8], .log (.checksumInvalid f.func f.checksum)]

/-- Every instruction completes, with one of the effects. -/
theorem exec_completes (i : Instr) (s : State) : ∃ t, exec i s = .next t ∧ ExecEffect s i t :=
  match i with
  | .sof f => ⟨_, rfl, execEffect_sof f s⟩
  | .sofMalformedLen01 none => ⟨_, rfl, .emits _ [.tx [0x15#8], .log (.malformedFrame 0x00#8)]⟩
  | .sofMalformedLen01 (some _) => ⟨_, rfl, .emits _ [.tx [0x15#8], .log (.malformedFrame 0x01#8)]⟩
  | .sofMalformedLen2 _ _ => ⟨_, rfl, .emits _ [.tx [0x15#8], .log (.malformedFrame 0x02#8)]⟩
  | .ack => ⟨_, rfl, .emits _ []⟩
  | .nak => ⟨_, rfl, .emits _ [.log (.deliveryAnomaly 0x15#8)]⟩
  | .can => ⟨_, rfl, .emits _ [.log (.deliveryAnomaly 0x18#8)]⟩
  | .unknownHeader x => ⟨_, rfl, .emits _ [.log (.unknownHeader x)]⟩
  | .kindReq _ _ => ⟨_, rfl, .validSof _ (validate_sofOf _ _ _) trivial⟩
  | .kindRes _ _ => ⟨_, rfl, .validSof _ (validate_sofOf _ _ _) trivial⟩
  | .kindOther _ _ _ => ⟨_, rfl, .validSof _ (validate_sofOf _ _ _) trivial⟩
  | .evNop => ⟨_, rfl, .emits _ []⟩
  | .evRxByte b => ⟨_, rfl, .rxByte b⟩
  | .evTick => ⟨_, rfl, .tick⟩
  | .evDispatch kind func payload => ⟨_, rfl, .dispatch _ kind func payload trivial⟩
  | .evCancel tag => ⟨_, rfl, .cancel tag trivial⟩
  | .evSeqNext => ⟨_, rfl, .seqNext (by simp)⟩
  | .evReset => ⟨_, rfl, .reset⟩
  | .evReserved => ⟨_, rfl, .emits _ [.reply (.refused .opcode), .log (.reservedCommand 0x07#8)]⟩
  | .hostNop => ⟨_, rfl, .emits _ []⟩
  | .hostDispatch kind func payload => ⟨_, rfl, .dispatch _ kind func payload trivial⟩
  | .hostCancel tag => ⟨_, rfl, .cancel tag trivial⟩
  | .hostSeqNext => ⟨_, rfl, .seqNext (by simp)⟩
  | .hostReserved op => ⟨_, rfl, .emits _ [.reply (.refused .opcode), .log (.reservedCommand op)]⟩
  | .codecEncode f => ⟨_, rfl, .emits _ [.codec (.encoded (encodeFrame f))]⟩
  | .codecDecode buf => ⟨_, rfl, .emits _ [.codec (.decoded (decodeFrame buf))]⟩
  | .codecExtract buf => ⟨_, rfl, .emits _ [.codec (.extracted (extractFrames buf).1 (extractFrames buf).2)]⟩
  | .codecValidate f => ⟨_, rfl, .emits _ [.codec (.validated (validateOperand f))]⟩

/-- Inversion of `exec`: the next state is one of the effects. -/
theorem exec_effect {i : Instr} {s t : State} (h : exec i s = .next t) : ExecEffect s i t := by
  obtain ⟨t', h', effect⟩ := exec_completes i s
  obtain rfl : t' = t := by simpa [h'] using h
  exact effect

/-- Inversion of `step`: it holds the state, or executes an instruction with its bytes taken from what is offered (R57, R238). -/
theorem step_cases {s t : State} (h : step s = .next t) :
    t = s ∨ ∃ (i : Instr) (offered : List Input), exec i (s.setOffered offered) = .next t := by
  unfold step stepOf at h
  split at h
  · split at h
    · exact .inl (by simpa using h.symm)
    · exact .inr ⟨_, _, h⟩
    · cases h
  · cases h

/-! ### the invariants (R34) -/

theorem good_emits (new : List Emission) {s : State} (h : GoodState s) : GoodState (new.foldl State.emit s) := by
  induction new generalizing s with
  | nil => exact h
  | cons e new ih => exact ih (good_emit e h)

theorem good_sofValid {f : Sof} {s : State} (hv : validateChecksum (.sof f) = true) (h : GoodState s) :
    GoodState (sofValid f s) := good_correlate hv (good_emit _ h)

theorem good_rxByte (b : Byte) {s : State} (h : GoodState s) : GoodState (rxByte b s) := by
  rw [rxByte_eq]
  exact good_processFrames _ (good_setRxbuf h (extractFrames_remainder _))

theorem good_seqNext {s : State} (h : GoodState s) : GoodState (seqNext s) := by
  obtain ⟨q, t, r⟩ := (goodState_iff s).mp h
  have hseq : s.seq % 126 + 1 ≤ 126 := by omega
  exact good_emit _ ((goodState_iff _).mpr
    ⟨q, timerGood_congr t rfl rfl rfl rfl rfl rfl, ⟨r.cfgValid, r.buffer, r.nextTag, hseq⟩⟩)

/-- The reset table meets the invariants whatever state it is applied to (R250). -/
theorem good_resetS {s : State} (hc : s.cfg.valid = true) : GoodState (resetS s) := by
  have queue : QueueGood s.cfg [] := ⟨by simp, by simp [tagsInUse], by simp, by simp⟩
  have timer : TimerGood (resetS s) := by constructor <;> simp [resetS, phase, busy]
  exact (goodState_iff _).mpr ⟨queue, timer, ⟨hc, .inl rfl, Nat.two_pow_pos _, Nat.zero_le _⟩⟩

/-- Power-on is the reset table, so applying the table changes nothing (R37). -/
theorem good_powerOn {c : Cfg} (hc : c.valid = true) : GoodState (State.powerOn c) :=
  good_resetS (s := State.powerOn c) hc

theorem good_exec {i : Instr} {s t : State} (h : GoodState s) (he : exec i s = .next t) : GoodState t := by
  cases exec_effect he with
  | emits _ new => exact good_emits new h
  | validSof f hv => exact good_sofValid hv h
  | rxByte b => exact good_rxByte b h
  | tick => exact good_tick h
  | dispatch => exact good_dispatch h
  | cancel => exact good_cancel h
  | seqNext => exact good_seqNext h
  | reset => exact good_resetS h.cfgValid

/-! ### the timer of a busy engine is held unless a request completes (R26 to R29) -/

theorem sameTimer_refl (s : State) : sameTimer s s := ⟨rfl, rfl, rfl, rfl⟩

theorem sameTimer_trans {a b c : State} (h : sameTimer a b) (g : sameTimer b c) : sameTimer a c := by
  obtain ⟨h1, h2, h3, h4⟩ := h
  obtain ⟨g1, g2, g3, g4⟩ := g
  exact ⟨g1.trans h1, g2.trans h2, g3.trans h3, g4.trans h4⟩

/-- A longer emission list has a longer COMPL. -/
theorem compl_prefix {s t : State} (h : tracesGrow s t) : s.compl <+: t.compl := by
  obtain ⟨new, h⟩ := h
  exact ⟨new.flatMap complOf, by simp [State.compl, h]⟩

/-- From `s` to `t` the traces grow, and a busy engine that completes nothing keeps its timer and stays busy. That it stays
busy lets the relation compose over the frames of one RX_BYTE. -/
structure TimerHeld (s t : State) : Prop where
  grows : tracesGrow s t
  held : s.queue ≠ [] → t.compl = s.compl → sameTimer s t ∧ t.queue ≠ []

theorem TimerHeld.trans {a b c : State} (h : TimerHeld a b) (g : TimerHeld b c) : TimerHeld a c := by
  refine ⟨tracesGrow_trans h.grows g.grows, fun hq hc => ?_⟩
  have hab : b.compl = a.compl :=
    ((compl_prefix h.grows).eq_of_length_le (hc ▸ (compl_prefix g.grows).length_le)).symm
  obtain ⟨tab, qb⟩ := h.held hq hab
  obtain ⟨tbc, qc⟩ := g.held qb (hc.trans hab.symm)
  exact ⟨sameTimer_trans tab tbc, qc⟩

theorem TimerHeld.refl (s : State) : TimerHeld s s := ⟨tracesGrow_refl s, fun hq _ => ⟨sameTimer_refl s, hq⟩⟩

theorem timerHeld_emit (s : State) (e : Emission) : TimerHeld s (s.emit e) :=
  ⟨(queueStep_emit s e).grows, fun hq _ => ⟨sameTimer_refl s, hq⟩⟩

theorem timerHeld_setRxbuf (s : State) (b : List Byte) : TimerHeld s (s.setRxbuf b) :=
  ⟨⟨[], by simp⟩, fun hq _ => ⟨sameTimer_refl s, hq⟩⟩

theorem timerHeld_setQueue (s : State) (e : Entry) (q : List Entry) : TimerHeld s (s.setQueue (e :: q)) :=
  ⟨(queueStep_setQueue s _).grows, fun _ _ => ⟨sameTimer_refl s, by simp⟩⟩

/-- Settling a head emits its completion (R170). -/
theorem settle_compl {st : Status} {s : State} {e : Entry} {q : List Entry} (h : s.queue = e :: q) :
    (settle st s).compl = s.compl ++ [⟨e.tag, st, completionFrames st e⟩] := by
  simp [settle_cons h]

theorem timerHeld_settle (st : Status) (s : State) : TimerHeld s (settle st s) := by
  refine ⟨(queueStep_settle st s).grows, fun hq hc => ?_⟩
  obtain ⟨e, q, he⟩ := List.exists_cons_of_ne_nil hq
  simp [settle_compl he] at hc

theorem timerHeld_correlate (f : Sof) (s : State) : TimerHeld s (correlate f s) := by
  cases hq : s.queue with
  | nil => rw [correlate_nil hq]; exact timerHeld_emit _ _
  | cons e q =>
    rw [correlate_cons hq]
    split_ifs
    · exact (timerHeld_setQueue _ _ _).trans (timerHeld_settle _ _)
    · exact timerHeld_setQueue _ _ _
    · exact timerHeld_emit _ _
    · exact timerHeld_emit _ _

theorem timerHeld_sofValid (f : Sof) (s : State) : TimerHeld s (sofValid f s) :=
  (timerHeld_emit _ _).trans (timerHeld_correlate _ _)

theorem timerHeld_processFrame (s : State) (f : Frame) : TimerHeld s (processFrame s f) := by
  cases f with
  | sof f =>
    cases hv : validateChecksum (.sof f) with
    | true => rw [processFrame, sofReceived_valid hv]; exact timerHeld_sofValid f s
    | false => rw [processFrame, sofReceived_invalid hv]; exact (timerHeld_emit _ _).trans (timerHeld_emit _ _)
  | malformed => exact (timerHeld_emit _ _).trans (timerHeld_emit _ _)
  | ack => exact .refl s
  | nak | can | unknown => exact timerHeld_emit _ _

theorem timerHeld_processFrames (fs : List Frame) (s : State) : TimerHeld s (fs.foldl processFrame s) := by
  induction fs generalizing s with
  | nil => exact .refl s
  | cons f fs ih => exact (timerHeld_processFrame s f).trans (ih _)

theorem timerHeld_rxByte (b : Byte) (s : State) : TimerHeld s (rxByte b s) :=
  (timerHeld_setRxbuf s _).trans (timerHeld_processFrames _ _)

theorem timerHeld_cancelQueued (tag : Byte) (s : State) : TimerHeld s (cancelQueued tag s) := by
  unfold cancelQueued
  split
  · exact .refl s
  · split
    · exact .refl s
    · exact ((timerHeld_setQueue _ _ _).trans (timerHeld_emit _ _)).trans (timerHeld_emit _ _)

theorem timerHeld_cancel (tag : Byte) (s : State) : TimerHeld s (cancel tag s) := by
  unfold cancel cancelTag
  refine (timerHeld_emit s (.reply (.accepted tag))).trans ?_
  split
  · exact .refl _
  · split_ifs
    · exact (timerHeld_emit _ _).trans (timerHeld_settle _ _)
    · exact timerHeld_cancelQueued _ _

/-- DISPATCH behind a head leaves the head's timer alone: the new entry is not started (R161). -/
theorem dispatch_sameTimer {again : Input} {kind func : Byte} {payload : List Byte} {s : State} (hq : s.queue ≠ []) :
    sameTimer s (dispatch again kind func payload s) := by
  unfold dispatch dispatchEnabled
  split_ifs
  · exact sameTimer_refl s
  · have behind (e : Entry) : (s.queue ++ [e]).length ≠ 1 := by simpa using hq
    simp only [allocTag_state, emit_queue, setQueue_queue, setNextTag_queue, behind, if_false]
    exact sameTimer_refl s
  · exact sameTimer_refl s

/-! ### who writes what (R24 to R33) -/

/-- Each state element is as it was unless the instruction is one that writes it. -/
structure WritesItsOwn (i : Instr) (s t : State) : Prop where
  seq : i ∉ [Instr.evSeqNext, .hostSeqNext, .evReset] → t.seq = s.seq
  nextTag : ¬ isDispatch i → i ≠ .evReset → t.nextTag = s.nextTag
  rxbuf : (∀ b, i ≠ .evRxByte b) → i ≠ .evReset → t.rxbuf = s.rxbuf
  queue : ¬ writesQueue i → t.queue = s.queue ∧ sameTimer s t
  timer : i ≠ .evTick → i ≠ .evReset → s.queue ≠ [] → t.compl = s.compl → sameTimer s t
  offered : ¬ isDispatch i → t.offered = s.offered

theorem writesQueue_of_isDispatch {i : Instr} (h : isDispatch i) : writesQueue i := by
  unfold isDispatch at h
  split at h
  · trivial
  · trivial
  · exact h.elim

/-- An operation on the queue and its timer writes nothing else, so the queue and the timer are all that is left to show. -/
theorem writesItsOwn_of_queueStep {i : Instr} {s t : State} (step : QueueStep s t)
    (queue : ¬ writesQueue i → t.queue = s.queue ∧ sameTimer s t)
    (timer : i ≠ .evTick → s.queue ≠ [] → t.compl = s.compl → sameTimer s t) : WritesItsOwn i s t where
  seq _ := step.seq
  nextTag _ _ := step.nextTag
  rxbuf _ _ := step.rxbuf
  queue := queue
  timer h _ := timer h
  offered _ := step.offered

theorem emits_eq (new : List Emission) (s : State) : new.foldl State.emit s = { s with out := s.out ++ new } := by
  induction new generalizing s with
  | nil => simp
  | cons e new ih => simp [ih, State.emit]

theorem writesItsOwn_emits (i : Instr) (new : List Emission) (s : State) : WritesItsOwn i s (new.foldl State.emit s) := by
  rw [emits_eq]
  exact writesItsOwn_of_queueStep ⟨⟨new, rfl⟩, rfl, rfl, rfl, rfl, rfl, rfl⟩ (fun _ => ⟨rfl, sameTimer_refl s⟩)
    (fun _ _ _ => sameTimer_refl s)

theorem writesItsOwn_rxByte (b : Byte) (s : State) : WritesItsOwn (.evRxByte b) s (rxByte b s) := by
  have step := queueStep_processFrames (extractFrames (s.rxbuf ++ [b])).1 (s.setRxbuf (extractFrames (s.rxbuf ++ [b])).2)
  exact {
    seq := fun _ => step.seq
    nextTag := fun _ _ => step.nextTag
    rxbuf := fun h _ => absurd rfl (h b)
    queue := fun h => absurd trivial h
    timer := fun _ _ hq hc => ((timerHeld_rxByte b s).held hq hc).1
    offered := fun _ => step.offered }

theorem writesItsOwn_dispatch {i : Instr} (hi : isDispatch i) (again : Input) (kind func : Byte) (payload : List Byte)
    (s : State) :
    WritesItsOwn i s (dispatch again kind func payload s) := by
  obtain ⟨_, _, _, seq, rxbuf⟩ := dispatch_frame again kind func payload s
  exact {
    seq := fun _ => seq
    nextTag := fun h => absurd hi h
    rxbuf := fun _ _ => rxbuf
    queue := fun h => absurd (writesQueue_of_isDispatch hi) h
    timer := fun _ _ hq _ => dispatch_sameTimer hq
    offered := fun h => absurd hi h }

theorem writesItsOwn_seqNext {i : Instr} (hi : i ∈ [Instr.evSeqNext, .hostSeqNext]) (s : State) :
    WritesItsOwn i s (seqNext s) where
  seq h := absurd (show i ∈ [Instr.evSeqNext, .hostSeqNext] ++ [.evReset] from List.mem_append_left _ hi) h
  nextTag _ _ := rfl
  rxbuf _ _ := rfl
  queue _ := ⟨rfl, sameTimer_refl s⟩
  timer _ _ _ _ := sameTimer_refl s
  offered _ := rfl

theorem writesItsOwn_reset (s : State) : WritesItsOwn .evReset s (resetS s) where
  seq h := absurd (by simp) h
  nextTag _ h := absurd rfl h
  rxbuf _ h := absurd rfl h
  queue h := absurd trivial h
  timer _ h := absurd rfl h
  offered _ := rfl

theorem exec_writesItsOwn {i : Instr} {s t : State} (he : exec i s = .next t) : WritesItsOwn i s t := by
  cases exec_effect he with
  | emits _ new => exact writesItsOwn_emits i new s
  | validSof f _ hi =>
    exact writesItsOwn_of_queueStep (queueStep_sofValid f s) (fun h => absurd hi h)
      fun _ hq hc => ((timerHeld_sofValid f s).held hq hc).1
  | rxByte b => exact writesItsOwn_rxByte b s
  | tick => exact writesItsOwn_of_queueStep (queueStep_tick s) (fun h => absurd trivial h) (fun h => absurd rfl h)
  | dispatch again kind func payload hi => exact writesItsOwn_dispatch hi again kind func payload s
  | cancel tag hi =>
    exact writesItsOwn_of_queueStep (queueStep_cancel tag s) (fun h => absurd hi h)
      fun _ hq hc => ((timerHeld_cancel tag s).held hq hc).1
  | seqNext hi => exact writesItsOwn_seqNext hi s
  | reset => exact writesItsOwn_reset s

end Sys2Proof.Machine

namespace Sys2Proof.Claims

open Sys2Proof.Machine

/-- Settles O47: the step holds the state, or executes an instruction once what is offered has changed; both keep the
invariants. -/
theorem stepKeepsInvariants : Obligations.StepKeepsInvariants := by
  intro s t h hstep
  obtain rfl | ⟨i, offered, he⟩ := step_cases hstep
  · exact h
  · exact good_exec (good_setOffered offered h) he

/-- Settles O46: each of the effects leaves alone what its rows do not write. -/
theorem onlyItsEventsWriteEachElement : Obligations.OnlyItsEventsWriteEachElement := by
  intro i s t he
  obtain ⟨seq, nextTag, rxbuf, queue, timer, offered⟩ := exec_writesItsOwn he
  exact ⟨seq, nextTag, rxbuf, queue, timer, offered⟩

/-- Settles O48. -/
theorem powerOnMeetsInvariants : Obligations.PowerOnMeetsInvariants :=
  ⟨fun _ hc => good_powerOn hc, good_powerOn (by decide)⟩

end Sys2Proof.Claims
end

section
/-! The memory rules of 20_memory.md: the accumulation buffer makes deliveries of any size process the frames that EXTRACT cuts
(R65), and a step executes the instruction that the first offered input decodes to (R2, R57). -/

namespace Sys2Proof.Machine

open Sys2Proof.Claims

/-! ### the row of a frame does what ProcessFrame does with it (R131) -/

/-- What R23 says of a malformed frame: its length byte is below 3 and it holds the len + 2 bytes taken. -/
def malformedFits : Frame → Prop
  | .malformed len raw => len.toNat < 3 ∧ raw.length = len.toNat + 2
  | _ => True

theorem ctrlFrame_malformedFits (x : Byte) : malformedFits (ctrlFrame x) := by
  unfold ctrlFrame
  split_ifs <;> trivial

theorem decodeFrame_malformedFits {b : List Byte} {f : Frame} {n : Nat} (h : decodeFrame b = some (f, n)) :
    malformedFits f := by
  match b with
  | [] => simp at h
  | x :: r =>
    by_cases hx : x = 0x01#8
    · subst hx
      match r with
      | [] => simp at h
      | len :: r =>
        rw [decodeFrame_sof] at h
        split_ifs at h with hfew hlen
        · cases h
          exact ⟨hlen, by simpa using hfew⟩
        · cases h
          trivial
    · rw [decodeFrame_ctrl x r hx] at h
      cases h
      exact ctrlFrame_malformedFits x

theorem extractFrames_malformedFits (b : List Byte) : ∀ f ∈ (extractFrames b).1, malformedFits f := by
  induction b using buffer_induction with
  | none_case b h => simp [extractFrames_none h]
  | some_case b f n h ih =>
    rw [extractFrames_some h]
    exact List.forall_mem_cons.mpr ⟨decodeFrame_malformedFits h, ih⟩

/-- The malformed rows are told apart by the length byte, and the row of lengths 0 and 1 by whether there is a third byte. -/
theorem exec_malformed {len : Byte} {raw : List Byte} (h : malformedFits (.malformed len raw)) (s : State) :
    exec (instrOfFrame (.malformed len raw)) s = .next (malformedReceived len s) := by
  obtain ⟨hlen, hraw⟩ := h
  obtain rfl | rfl | rfl : len = 0x00#8 ∨ len = 0x01#8 ∨ len = 0x02#8 := by bv_omega
  · have no_third : raw[2]? = none := List.getElem?_eq_none (by simp [hraw])
    simp [instrOfFrame, no_third, exec, execSofMalformedLen01]
  · obtain ⟨third, hthird⟩ : ∃ x, raw[2]? = some x := ⟨_, List.getElem?_eq_getElem (by simp [hraw])⟩
    simp [instrOfFrame, hthird, exec, execSofMalformedLen01]
  · rfl

theorem exec_instrOfFrame {f : Frame} (h : malformedFits f) (s : State) :
    exec (instrOfFrame f) s = .next (processFrame s f) := by
  cases f with
  | malformed len raw => exact exec_malformed h s
  | sof | ack | nak | can | unknown => rfl

/-! ### runs of frame rows and of RX_BYTE -/

theorem runEvents_cons {i : Instr} {s t : State} (h : exec i s = .next t) (is : List Instr) :
    runEvents (i :: is) s = runEvents is t := by
  simp [runEvents, h]

theorem runEvents_frames {fs : List Frame} (h : ∀ f ∈ fs, malformedFits f) (s : State) :
    runEvents (fs.map instrOfFrame) s = .next (fs.foldl processFrame s) := by
  induction fs generalizing s with
  | nil => rfl
  | cons f fs ih =>
    obtain ⟨hf, hfs⟩ := List.forall_mem_cons.mp h
    rw [List.map_cons, runEvents_cons (exec_instrOfFrame hf s), ih hfs, List.foldl_cons]

@[simp] theorem processExtracted_rxbuf (r : List Frame × List Byte) (s : State) : (processExtracted r s).rxbuf = r.2 :=
  (queueStep_processFrames r.1 (s.setRxbuf r.2)).rxbuf

/-- Extracting in two rounds leaves what one round with all the frames and the last remainder leaves: no frame looks at the
buffer. -/
theorem processExtracted_processExtracted (fs : List Frame) (b : List Byte) (r : List Frame × List Byte) (s : State) :
    processExtracted r (processExtracted (fs, b) s) = processExtracted (fs ++ r.1, r.2) s := by
  simp only [processExtracted, List.foldl_append, ← foldl_processFrame_setRxbuf, setRxbuf_setRxbuf]

/-- RX_BYTEs one after the other do what one extraction from the buffer and all their bytes does (R65). -/
theorem runEvents_rxBytes (bs : List Byte) {s : State} (h : incompleteBuffer s.rxbuf) :
    runEvents (bs.map .evRxByte) s = .next (processExtracted (extractFrames (s.rxbuf ++ bs)) s) := by
  induction bs generalizing s with
  | nil =>
    rw [List.append_nil, extractFrames_none ((decodeFrame_none_iff _).mpr h)]
    rfl
  | cons b bs ih =>
    have hbuf : (rxByte b s).rxbuf = (extractFrames (s.rxbuf ++ [b])).2 := processExtracted_rxbuf _ _
    have hrx : rxByte b s = processExtracted (extractFrames (s.rxbuf ++ [b])) s := rxByte_eq b s
    calc runEvents ((b :: bs).map .evRxByte) s
        = runEvents (bs.map .evRxByte) (rxByte b s) := runEvents_cons rfl _
      _ = .next (processExtracted (extractFrames ((extractFrames (s.rxbuf ++ [b])).2 ++ bs)) (rxByte b s)) := by
          rw [ih (hbuf ▸ extractFrames_remainder _), hbuf]
      _ = .next (processExtracted (extractFrames (s.rxbuf ++ b :: bs)) s) := by
          rw [hrx, processExtracted_processExtracted, ← extractFrames_append, List.append_assoc, List.singleton_append]

/-! ### what the step runs (R57) -/

/-- Only a DISPATCH can be without a step, and it is for want of room in the queue (R161). -/
theorem hasStep_iff (s : State) (i : Instr) :
    hasStep s i = true ↔ (isDispatch i → s.queue.length < s.cfg.queueDepth) := by
  cases i with
  | evDispatch | hostDispatch => simp [hasStep, isDispatch, queueHasRoom]
  | _ => exact iff_of_true rfl False.elim

theorem step_of_run {s : State} {i : Instr} {offered : List Input} (hc : s.cfg.valid = true)
    (h : fetch s = .run i offered) : step s = exec i (s.setOffered offered) := by
  simp [step, stepOf, hc, h]

end Sys2Proof.Machine

namespace Sys2Proof.Claims

open Sys2Proof.Machine

/-- Settles O23: both runs end where one extraction from the buffer and the whole string ends. -/
theorem chunkingLaw : Obligations.ChunkingLaw := by
  intro s bs h
  exact ⟨processExtracted (extractFrames (s.rxbuf ++ bs)) s, runEvents_rxBytes bs h,
    runEvents_frames (extractFrames_malformedFits _) _, processExtracted_rxbuf _ _⟩

/-- Settles O52: the fetch takes the first offered input, whose instruction has a step. -/
theorem stepRunsTheDecodedInstruction : Obligations.StepRunsTheDecodedInstruction := by
  intro s inp later i rest hc ho hd hroom
  exact step_of_run hc (fetch_cons ho hd ((hasStep_iff s i).mpr hroom))

end Sys2Proof.Claims
end

section
/-! The encodings of 30_encoding.md: `encode` and `decode` are inverse to each other (R70 to R85), a command whose bytes come in
two inputs is put together (R81), and the rows and outputs that the chapter writes out byte by byte (R82 to R84). -/

namespace Sys2Proof.Machine

/-! ### decoding what `encode` writes -/

/-- The round trip of each row is a law of its own; together they are the round trip of every instruction. -/
theorem decode_encode (i : Instr) : Laws.RoundTrip.Statement i := by
  cases i with
  | sof f => exact Laws.RoundTrip.sof f
  | sofMalformedLen01 body => exact Laws.RoundTrip.sofMalformedLen01 body
  | sofMalformedLen2 b0 b1 => exact Laws.RoundTrip.sofMalformedLen2 b0 b1
  | ack => exact Laws.RoundTrip.ack
  | nak => exact Laws.RoundTrip.nak
  | can => exact Laws.RoundTrip.can
  | unknownHeader x => exact Laws.RoundTrip.unknownHeader x
  | kindReq func payload => exact Laws.RoundTrip.kindReq func payload
  | kindRes func payload => exact Laws.RoundTrip.kindRes func payload
  | kindOther kind func payload => exact Laws.RoundTrip.kindOther kind func payload
  | evNop => exact Laws.RoundTrip.evNop
  | evRxByte b => exact Laws.RoundTrip.evRxByte b
  | evTick => exact Laws.RoundTrip.evTick
  | evDispatch kind func payload => exact Laws.RoundTrip.evDispatch kind func payload
  | evCancel tag => exact Laws.RoundTrip.evCancel tag
  | evSeqNext => exact Laws.RoundTrip.evSeqNext
  | evReset => exact Laws.RoundTrip.evReset
  | evReserved => exact Laws.RoundTrip.evReserved
  | hostNop => exact Laws.RoundTrip.hostNop
  | hostDispatch kind func payload => exact Laws.RoundTrip.hostDispatch kind func payload
  | hostCancel tag => exact Laws.RoundTrip.hostCancel tag
  | hostSeqNext => exact Laws.RoundTrip.hostSeqNext
  | hostReserved op => exact Laws.RoundTrip.hostReserved op
  | codecEncode f => exact Laws.RoundTrip.codecEncode f
  | codecDecode buf => exact Laws.RoundTrip.codecDecode buf
  | codecExtract buf => exact Laws.RoundTrip.codecExtract buf
  | codecValidate f => exact Laws.RoundTrip.codecValidate f

/-! ### encoding what `decode` reads -/

/-- An instruction read from the front of `bs` at a port is well formed, and its encoding at that port is the bytes it was read
from. Where nothing is read there is nothing to say. -/
def EncodesBack (c : Cfg) (p : Port) (bs : List Byte) : Decoded → Prop
  | .instr i rest => i.wellFormed c = true ∧ (encode c i).port = p ∧ (encode c i).bytes ++ rest = bs
  | .incomplete => True
  | .invalid _ => True

theorem encodesBack_event (c : Cfg) (bs : List Byte) : EncodesBack c .event bs (decodeEvent bs) := by
  cases bs with
  | nil => trivial
  | cons ev r =>
    unfold decodeEvent
    dsimp only
    split_ifs with nop rxByte tick dispatch cancel seqNext reset reserved
    · exact ⟨rfl, rfl, by rw [nop]; rfl⟩
    · cases r with
      | nil => trivial
      | cons b rest => exact ⟨rfl, rfl, by rw [rxByte]; rfl⟩
    · exact ⟨rfl, rfl, by rw [tick]; rfl⟩
    · cases operands : splitDispatch r with
      | none => trivial
      | some o =>
        obtain ⟨hbytes, hlen⟩ := splitDispatch_some operands
        exact ⟨decide_eq_true hlen, rfl, by rw [dispatch, ← hbytes]; rfl⟩
    · cases r with
      | nil => trivial
      | cons tag rest => exact ⟨rfl, rfl, by rw [cancel]; rfl⟩
    · exact ⟨rfl, rfl, by rw [seqNext]; rfl⟩
    · exact ⟨rfl, rfl, by rw [reset]; rfl⟩
    · exact ⟨rfl, rfl, by rw [reserved]; rfl⟩
    · trivial

theorem encodesBack_host (c : Cfg) (bs : List Byte) : EncodesBack c .host bs (decodeHost bs) := by
  cases bs with
  | nil => trivial
  | cons op r =>
    unfold decodeHost
    dsimp only
    split_ifs with nop dispatch cancel seqNext
    · exact ⟨rfl, rfl, by rw [nop]; rfl⟩
    · cases operands : splitDispatch r with
      | none => trivial
      | some o =>
        obtain ⟨hbytes, hlen⟩ := splitDispatch_some operands
        exact ⟨decide_eq_true hlen, rfl, by rw [dispatch, ← hbytes]; rfl⟩
    · cases r with
      | nil => trivial
      | cons tag rest => exact ⟨rfl, rfl, by rw [cancel]; rfl⟩
    · exact ⟨rfl, rfl, by rw [seqNext]; rfl⟩
    · have reserved : 4 ≤ op.toNat := by bv_omega
      exact ⟨decide_eq_true reserved, rfl, rfl⟩

theorem encodesBack_codec (c : Cfg) (bs : List Byte) : EncodesBack c .codec bs (decodeCodec bs) := by
  cases bs with
  | nil => trivial
  | cons op r =>
    unfold decodeCodec
    dsimp only
    split_ifs with selEncode selDecode selExtract selValidate
    · cases operand : readFrameOperand r with
      | frame f rest => exact ⟨rfl, rfl, by rw [selEncode, ← readFrameOperand_some operand]; rfl⟩
      | incomplete | badForm => trivial
    · exact ⟨rfl, rfl, by rw [selDecode]; exact List.append_nil _⟩
    · exact ⟨rfl, rfl, by rw [selExtract]; exact List.append_nil _⟩
    · cases operand : readFrameOperand r with
      | frame f rest => exact ⟨rfl, rfl, by rw [selValidate, ← readFrameOperand_some operand]; rfl⟩
      | incomplete | badForm => trivial
    · trivial

theorem encodesBack_kind (c : Cfg) (bs : List Byte) : EncodesBack c .kind bs (decodeKind c bs) := by
  match bs with
  | [] => trivial
  | [_] => trivial
  | kind :: func :: payload =>
    unfold decodeKind
    dsimp only
    split_ifs with long req res
    · trivial
    · exact ⟨decide_eq_true (Nat.not_lt.mp long), rfl, by rw [req]; exact List.append_nil _⟩
    · exact ⟨decide_eq_true (Nat.not_lt.mp long), rfl, by rw [res]; exact List.append_nil _⟩
    · exact ⟨decide_eq_true ⟨req, res, Nat.not_lt.mp long⟩, rfl, List.append_nil _⟩

/-- The row of a one-byte frame is encoded as its header, which for UNKNOWN_HEADER is none of the four (R71). -/
theorem encode_ctrlFrame (c : Cfg) {x : Byte} (notSof : x ≠ 0x01#8) :
    (instrOfFrame (ctrlFrame x)).wellFormed c = true ∧ encode c (instrOfFrame (ctrlFrame x)) = ⟨.wire, [x]⟩ := by
  unfold ctrlFrame
  split_ifs with ack nak can
  · exact ⟨rfl, by rw [ack]; rfl⟩
  · exact ⟨rfl, by rw [nak]; rfl⟩
  · exact ⟨rfl, by rw [can]; rfl⟩
  · exact ⟨decide_eq_true (by simp [namedHeaders, notSof, ack, nak, can]), rfl⟩

/-- The rows of the malformed forms are encoded as header, length byte and the bytes that the length counts (R134). -/
theorem encode_malformed (c : Cfg) {len : Byte} {body : List Byte} (short : len.toNat < 3) (hbody : body.length = len.toNat) :
    (instrOfFrame (.malformed len (0x01#8 :: len :: body))).wellFormed c = true ∧
      encode c (instrOfFrame (.malformed len (0x01#8 :: len :: body))) = ⟨.wire, 0x01#8 :: len :: body⟩ := by
  obtain rfl | rfl | rfl : len = 0x00#8 ∨ len = 0x01#8 ∨ len = 0x02#8 := by bv_omega
  · obtain rfl := List.length_eq_zero_iff.mp hbody
    exact ⟨rfl, rfl⟩
  · obtain ⟨a, rfl⟩ := List.length_eq_one_iff.mp hbody
    exact ⟨rfl, rfl⟩
  · obtain ⟨a, b, rfl⟩ := List.length_eq_two.mp hbody
    exact ⟨rfl, rfl⟩

/-- The row of a frame that DECODE finds is encoded as the bytes DECODE took. -/
theorem encode_decodedFrame (c : Cfg) {bs : List Byte} {f : Frame} {n : Nat} (h : decodeFrame bs = some (f, n)) :
    (instrOfFrame f).wellFormed c = true ∧ encode c (instrOfFrame f) = ⟨.wire, bs.take n⟩ := by
  match bs with
  | [] => simp at h
  | x :: r =>
    by_cases notSof : x ≠ 0x01#8
    · rw [decodeFrame_ctrl x r notSof] at h
      cases h
      exact encode_ctrlFrame c notSof
    · obtain rfl := not_not.mp notSof
      match r with
      | [] => simp at h
      | len :: r =>
        have hsof := h
        rw [decodeFrame_sof] at h
        split_ifs at h with few short
        · cases h
          exact encode_malformed c short (List.length_take_of_le (Nat.not_lt.mp few))
        · cases h
          obtain ⟨hbytes, hlen⟩ := decodeFrame_take hsof
          exact ⟨decide_eq_true hlen, congrArg (Input.mk .wire) hbytes⟩

theorem encodesBack_wire (c : Cfg) (bs : List Byte) : EncodesBack c .wire bs (decodeWire bs) := by
  unfold decodeWire
  cases decoded : decodeFrame bs with
  | none => trivial
  | some found =>
    obtain ⟨f, n⟩ := found
    obtain ⟨wf, henc⟩ := encode_decodedFrame c decoded
    exact ⟨wf, by rw [henc], by rw [henc]; exact List.take_append_drop n bs⟩

/-- The ports with encodings of their own; a transport byte and the two strobes are encoded at the event port. -/
theorem decode_encodesBack (c : Cfg) {p : Port} (bs : List Byte) (hp : p ∈ [Port.wire, .kind, .event, .host, .codec]) :
    EncodesBack c p bs (decode c p bs) := by
  cases p with
  | wire => exact encodesBack_wire c bs
  | kind => exact encodesBack_kind c bs
  | event => exact encodesBack_event c bs
  | host => exact encodesBack_host c bs
  | codec => exact encodesBack_codec c bs
  | transport | timeBase | resetInput => simp at hp

/-! ### a command in two inputs -/

/-- An incomplete first input is looked at again with the next input at its port behind it. -/
theorem fetch_joined {s : State} {inp : Input} {later joined : List Input} (ho : s.offered = inp :: later)
    (hd : decode s.cfg inp.port inp.bytes = .incomplete) (hj : joinNext inp later = some joined) :
    fetch s = fetchFrom s (fetchFuel joined) [] joined := by
  have enough : fetchFuel (inp :: later) = fetchFuel joined + 1 := by
    rw [fetchFuel_cons, fetchFuel_joinNext hj]; omega
  rw [fetch, ho, enough, fetchFrom]
  simp only [hd, hj]

/-- With enough fuel, an input in front that has a step is taken. -/
theorem fetchFrom_cons {s : State} {inp : Input} {i : Instr} {rest : List Byte} (passed later : List Input)
    (hd : decode s.cfg inp.port inp.bytes = .instr i rest) (hs : hasStep s i = true) :
    fetchFrom s (fetchFuel (inp :: later)) passed (inp :: later) = .run i (passed ++ leftover inp.port rest ++ later) := by
  rw [fetchFuel_cons, Nat.add_right_comm, fetchFrom]
  simp only [hd, hs, if_true]

/-! ### single rows -/

/-- A reserved command is two emissions (R83). -/
theorem reservedCommand_eq (op : Byte) (s : State) :
    reservedCommand op s = { s with out := s.out ++ [.reply (.refused .opcode), .log (.reservedCommand op)] } :=
  emits_eq [.reply (.refused .opcode), .log (.reservedCommand op)] s

/-- Within the payload that a frame can carry the codec unit's VALIDATE is R108's. -/
theorem validateOperand_eq {f : Frame} (short : ∀ g, f = .sof g → g.payload.length ≤ payloadMax) :
    validateOperand f = validateChecksum f := by
  cases f with
  | sof g => exact if_pos (short g rfl)
  | ack | nak | can | unknown | malformed => rfl

end Sys2Proof.Machine

namespace Sys2Proof.Claims

open Sys2Proof.Machine

/-- Settles O2, row by row. -/
theorem decodeOfEncodeIsTheInstruction : Obligations.DecodeOfEncodeIsTheInstruction :=
  fun c i hc hi => decode_encode i c hc hi

/-- Settles O3, port by port. -/
theorem encodeOfDecodeIsTheBytes : Obligations.EncodeOfDecodeIsTheBytes := by
  intro c p bs i rest hp hd
  have back := decode_encodesBack c bs hp
  rwa [hd] at back

/-- Settles O55: the fetch joins the two inputs, and the joined one is the first with a step. -/
theorem incompleteCommandIsContinued : Obligations.IncompleteCommandIsContinued := by
  intro s p a b later i rest hc ho ha hab hroom
  have joined : joinNext ⟨p, a⟩ (⟨p, b⟩ :: later) = some (⟨p, a ++ b⟩ :: later) := if_pos rfl
  have taken := fetchFrom_cons (inp := ⟨p, a ++ b⟩) [] later hab ((hasStep_iff s i).mpr hroom)
  exact step_of_run hc ((fetch_joined ho ha joined).trans taken)

/-- Settles O1: the written-out words and the bytes and strobes of the ports are decoded by computation. -/
theorem writtenOutWordsDecode : Obligations.WrittenOutWordsDecode :=
  ⟨rfl, rfl, rfl, rfl, rfl, rfl, rfl, rfl, rfl, fun _ _ _ => rfl, fun _ => rfl, fun _ => rfl⟩

/-- Settles O12: each row emits one codec result; only VALIDATE looks at the operand's length. -/
theorem codecUnitShowsItsResult : Obligations.CodecUnitShowsItsResult := by
  intro s f b
  refine ⟨rfl, rfl, rfl, fun short => ?_, validateOperand f, rfl⟩
  rw [← validateOperand_eq short]
  rfl

/-- Settles O43: both rows are `reservedCommand`, of EV value 7 and of the opcode. -/
theorem reservedCommandIsRefused : Obligations.ReservedCommandIsRefused := fun s op =>
  ⟨congrArg _ (reservedCommand_eq 0x07#8 s), congrArg _ (reservedCommand_eq op s)⟩

/-- Settles O57: each element's code and info bytes, read off R82 and R222. -/
theorem outputByteForms : Obligations.OutputByteForms :=
  ⟨fun _ => rfl, rfl, rfl, fun _ => rfl, fun _ _ => rfl, fun _ => rfl, fun _ => rfl, fun _ => rfl, fun _ _ => rfl,
    fun _ => rfl, fun _ => rfl, fun _ => rfl, fun _ _ => rfl, fun _ => rfl, fun _ => rfl⟩

end Sys2Proof.Claims
end

section
/-! The frame codec of 40_codec.md: the checksum is a xor fold (R101, R102), ENCODE and DECODE give a frame back (R104, R109, R112),
DECODE looks at no byte behind its frame (R110), so EXTRACT cuts the buffer into frames (R107), and one flipped bit shows (R111). -/

namespace Sys2Proof.Machine

/-! ### the checksum as a fold -/

/-- Folding from the left is folding from the right, since xor is commutative and associative. -/
theorem foldl_xor_eq_xorFold (l : List Byte) : l.foldl (· ^^^ ·) 0x00#8 = xorFold l :=
  List.foldl_eq_foldr

theorem checksum_eq_xorFold (kind func : Byte) (payload : List Byte) :
    checksum kind func payload = xorFold ([0xFF#8, BitVec.ofNat 8 (payload.length + 3), kind, func] ++ payload) := by
  simp only [checksum, xorFold_append, xorFold_cons, xorFold_nil, BitVec.xor_zero, BitVec.xor_assoc]

/-- The bytes that the checksum covers are those between header and checksum byte (R100). -/
theorem validate_iff_covered (f : Sof) :
    validateChecksum (.sof f) = true ↔ 0xFF#8 ^^^ xorFold (((sofBytes f).drop 1).dropLast) = f.checksum := by
  have covered : ((sofBytes f).drop 1).dropLast = [BitVec.ofNat 8 (f.payload.length + 3), f.kind, f.func] ++ f.payload :=
    List.dropLast_concat
  rw [covered, ← xorFold_cons, validateChecksum, decide_eq_true_eq, checksum_eq_xorFold, eq_comm]
  rfl

/-! ### a buffer is the bytes of its frame and a rest -/

/-- A decoded SOF frame's bytes in field order stand at the front of the buffer. -/
theorem eq_sofBytes_append {b : List Byte} {f : Sof} {n : Nat} (h : decodeFrame b = some (.sof f, n)) :
    b = sofBytes f ++ b.drop n ∧ n = (sofBytes f).length := by
  obtain ⟨hbytes, hlen⟩ := decodeFrame_take h
  have hb : b = sofBytes f ++ b.drop n := by rw [hbytes, List.take_append_drop]
  have again := decodeFrame_sofBytes f (b.drop n) hlen
  rw [← hb, h] at again
  cases again
  exact ⟨hb, (sofBytes_length f).symm⟩

/-- An SOF header with a length byte and as many bytes as it counts is one frame, of whichever form (R106). -/
theorem decodeFrame_counted {len : Byte} {r : List Byte} (h : r.length = len.toNat) :
    ∃ f, decodeFrame (0x01#8 :: len :: r) = some (f, len.toNat + 2) := by
  rw [decodeFrame_sof, if_neg (by omega)]
  split_ifs <;> exact ⟨_, rfl⟩

/-- The bytes that a frame takes decode to it alone (R110). -/
theorem decodeFrame_take_self {b : List Byte} {f : Frame} {n : Nat} (h : decodeFrame b = some (f, n)) :
    decodeFrame (b.take n) = some (f, (b.take n).length) := by
  match b with
  | [] => simp at h
  | x :: r =>
    by_cases notSof : x ≠ 0x01#8
    · rw [decodeFrame_ctrl x r notSof] at h
      cases h
      exact decodeFrame_ctrl x [] notSof
    · obtain rfl := not_not.mp notSof
      match r with
      | [] => simp at h
      | len :: r =>
        have enough : len.toNat ≤ r.length := by
          by_contra few
          rw [decodeFrame_sof, if_pos (by omega)] at h
          cases h
        have hlen : (r.take len.toNat).length = len.toNat := List.length_take_of_le enough
        obtain ⟨g, hg⟩ := decodeFrame_counted hlen
        have whole := decodeFrame_append (r.drop len.toNat) hg
        rw [List.cons_append, List.cons_append, List.take_append_drop, h] at whole
        cases whole
        rw [List.take_succ_cons, List.take_succ_cons, hg, List.length_cons, List.length_cons, hlen]

/-- An incomplete SOF frame lacks at least one of the bytes that its length byte counts, or the length byte itself. -/
theorem incomplete_completion {b : List Byte} (h : incompleteBuffer b) (hb : b ≠ []) :
    ∃ (c : List Byte) (len : Byte) (r : List Byte), c ≠ [] ∧ b ++ c = 0x01#8 :: len :: r ∧ r.length = len.toNat := by
  obtain rfl | ⟨header, short⟩ := h
  · exact absurd rfl hb
  · match b with
    | [] => exact absurd rfl hb
    | [x] =>
      obtain rfl : x = 0x01#8 := header
      exact ⟨[0x00#8], 0x00#8, [], by simp, rfl, rfl⟩
    | x :: len :: r =>
      obtain rfl : x = 0x01#8 := header
      have few : r.length < len.toNat := by simpa using short
      obtain ⟨k, missing⟩ : ∃ k, len.toNat = r.length + (k + 1) := Nat.exists_eq_add_of_lt few
      exact ⟨List.replicate (k + 1) 0x00#8, len, r ++ List.replicate (k + 1) 0x00#8, by simp, rfl, by simp [missing]⟩

/-! ### encoding and back -/

/-- ENCODE refuses an SOF frame whose length byte would not fit (R104). -/
theorem encodeFrame_sof_long {f : Sof} (long : payloadMax < f.payload.length) :
    encodeFrame (.sof f) = .refused .payloadTooLong := if_pos long

/-- A frame that is encoded as its header alone comes back from it (R109). -/
theorem decodeFrame_oneByte {g : Frame} {x : Byte} (henc : encodeFrame g = .bytes [x]) (hg : ctrlFrame x = g) (hx : x ≠ 0x01#8) :
    ∃ bs, encodeFrame g = .bytes bs ∧ decodeFrame bs = some (g, 1) :=
  ⟨[x], henc, hg ▸ decodeFrame_ctrl x [] hx⟩

/-- Any `n + 3` bytes behind header and length byte are the other fields of an SOF frame with `n` payload bytes. -/
theorem exists_sofBytes {t : List Byte} {n : Nat} (ht : t.length = n + 3) :
    ∃ g : Sof, g.payload.length = n ∧ 0x01#8 :: BitVec.ofNat 8 (n + 3) :: t = sofBytes g := by
  obtain ⟨kind, func, rest, rfl⟩ : ∃ kind func rest, t = kind :: func :: rest := by
    match t with
    | [] | [_] => simp at ht
    | kind :: func :: rest => exact ⟨kind, func, rest, rfl⟩
  have hrest : rest ≠ [] := by rintro rfl; simp at ht
  have hlen : rest.dropLast.length = n := by simp at ht ⊢; omega
  refine ⟨⟨kind, func, rest.dropLast, rest.getLast hrest⟩, hlen, ?_⟩
  simp only [sofBytes, hlen, List.cons_append, List.nil_append, List.dropLast_concat_getLast]

/-- Changing a byte behind the length byte leaves the bytes of an SOF frame as long as before. -/
theorem sofBytes_modify (f : Sof) (i : Nat) (m : Byte) :
    ∃ g : Sof, g.payload.length = f.payload.length ∧ (sofBytes f).modify (i + 2) (· ^^^ m) = sofBytes g := by
  obtain ⟨g, hlen, hg⟩ := exists_sofBytes (n := f.payload.length)
    (t := ([f.kind, f.func] ++ f.payload ++ [f.checksum]).modify i (· ^^^ m)) (by simp)
  exact ⟨g, hlen, hg ▸ rfl⟩

/-- A frame whose bytes behind the header are those of a valid one but for the bits of a mask that is not 0 is not valid. -/
theorem validate_of_modify {f g : Sof} {i : Nat} {m : Byte} (hf : validateChecksum (.sof f) = true) (hm : m ≠ 0x00#8)
    (hi : i < f.payload.length + 4) (hg : (sofBytes f).modify (i + 1) (· ^^^ m) = sofBytes g) :
    validateChecksum (.sof g) = false := by
  have tail : (sofBytes g).drop 1 = ((sofBytes f).drop 1).modify i (· ^^^ m) := by rw [← hg]; rfl
  rw [Bool.eq_false_iff, ne_eq, validate_iff_fold, tail, xorFold_modify _ _ _ (by simpa using hi),
    (validate_iff_fold f).mp hf, xor_eq_iff, BitVec.xor_self]
  exact hm

end Sys2Proof.Machine

namespace Sys2Proof.Claims

open Sys2Proof.Machine

/-- Settles O4: the fold does not depend on the order, and in field order it is the checksum. -/
theorem checksumIsOrderFree : Obligations.ChecksumIsOrderFree := by
  intro kind func payload l h
  have fold : xorFold l = checksum kind func payload := by rw [checksum_eq_xorFold, xorFold_perm h]
  exact ⟨fold, by rw [foldl_xor_eq_xorFold, fold]⟩

/-- Settles O5: the bytes that DECODE took are the frame's bytes in field order, the checksum last. -/
theorem validIffBytesFoldToFF : Obligations.ValidIffBytesFoldToFF := by
  intro b f n h
  obtain ⟨hb, hn⟩ := eq_sofBytes_append h
  have taken : b.take n = sofBytes f := (decodeFrame_take h).1.symm
  have last : b.getD (n - 1) 0#8 = f.checksum := by
    rw [hb, hn, List.getD_append _ _ _ _ (by simp)]
    simp [sofBytes]
  rw [taken, last]
  exact ⟨validate_iff_fold f, validate_iff_covered f⟩

/-- Settles O6. -/
theorem frameRoundTrip : Obligations.FrameRoundTrip := by
  constructor
  · intro f hlen
    have back : decodeFrame (sofBytes (sofOf f.kind f.func f.payload)) =
        some (.sof (sofOf f.kind f.func f.payload), f.payload.length + 5) := by
      simpa using decodeFrame_sofBytes (sofOf f.kind f.func f.payload) [] hlen
    refine ⟨_, encodeFrame_sof hlen, back, validate_sofOf _ _ _, fun right => ?_⟩
    rw [eq_sofOf_of_valid (decide_eq_true right)]
    exact back
  · rintro g (rfl | rfl | rfl | ⟨b, rfl, hb⟩)
    · exact decodeFrame_oneByte rfl rfl (by decide)
    · exact decodeFrame_oneByte rfl rfl (by decide)
    · exact decodeFrame_oneByte rfl rfl (by decide)
    · simp only [List.mem_cons, List.not_mem_nil, or_false, not_or] at hb
      obtain ⟨notSof, notAck, notNak, notCan⟩ := hb
      exact decodeFrame_oneByte rfl (by simp [ctrlFrame, notAck, notNak, notCan]) notSof

/-- Settles O7. -/
theorem decodePrefix : Obligations.DecodePrefix := by
  refine ⟨fun b c f n h => decodeFrame_append c h, fun b h hb => ?_⟩
  obtain ⟨c, len, r, hc, hbc, hr⟩ := incomplete_completion ((decodeFrame_none_iff b).mp h) hb
  obtain ⟨f, hf⟩ := decodeFrame_counted hr
  constructor
  · rw [← List.head?_append_of_ne_nil b hb (l₂ := c), hbc]
    rfl
  · exact ⟨c, f, hc, by rw [hbc, hf, List.length_cons, List.length_cons, hr]⟩

/-- Settles O8, by induction over the frames at the front of the buffer. -/
theorem extractCutsTheBuffer : Obligations.ExtractCutsTheBuffer := by
  intro b
  induction b using buffer_induction with
  | none_case b h =>
    rw [extractFrames_none h]
    exact ⟨[], rfl, .nil, h⟩
  | some_case b f n h ih =>
    obtain ⟨chunks, hcut, hdecode, hrest⟩ := ih
    rw [extractFrames_some h]
    refine ⟨b.take n :: chunks, ?_, .cons (decodeFrame_take_self h) hdecode, hrest⟩
    rw [List.flatten_cons, List.append_assoc, hcut, List.take_append_drop]

/-- Settles O9: the flipped bytes are again those of a frame, but they no longer fold to 0xFF. -/
theorem oneFlippedBitIsDetected : Obligations.OneFlippedBitIsDetected := by
  intro kind func payload i j hlen hi2 hi hj
  obtain ⟨i, rfl⟩ : ∃ k, i = k + 2 := ⟨i - 2, by omega⟩
  obtain ⟨g, hglen, hg⟩ := sofBytes_modify (sofOf kind func payload) i (BitVec.twoPow 8 j)
  have back : decodeFrame (sofBytes g) = some (.sof g, g.payload.length + 5) := by
    simpa using decodeFrame_sofBytes g [] (by rw [hglen]; exact hlen)
  have mask : BitVec.twoPow 8 j ≠ 0x00#8 := by
    intro zero
    simpa [hj, zero] using BitVec.getLsbD_twoPow (w := 8) j j
  exact ⟨g, _, hg ▸ back, validate_of_modify (validate_sofOf kind func payload) mask (by simp; omega) hg⟩

/-- Settles O10. -/
theorem encodedLength : Obligations.EncodedLength := by
  intro f bs h
  have hlen : f.payload.length ≤ payloadMax := by
    by_contra long
    rw [encodeFrame_sof_long (Nat.not_le.mp long)] at h
    cases h
  rw [encodeFrame_sof hlen] at h
  cases h
  refine ⟨sofBytes_length _, Nat.mod_eq_of_lt ?_⟩
  simp only [payloadMax] at hlen
  simp only [sofOf_payload]
  omega

/-- Settles O11, form by form. -/
theorem encodeRefusals : Obligations.EncodeRefusals := by
  intro f
  cases f with
  | sof g =>
    by_cases long : payloadMax < g.payload.length
    · exact iff_of_true ⟨_, encodeFrame_sof_long long⟩ (.inl ⟨g, rfl, long⟩)
    · refine iff_of_false ?_ ?_
      · rintro ⟨r, hr⟩
        rw [encodeFrame_sof (Nat.not_lt.mp long)] at hr
        cases hr
      · rintro (⟨_, same, h⟩ | ⟨_, _, h⟩)
        · exact long (Frame.sof.inj same ▸ h)
        · cases h
  | malformed len raw => exact iff_of_true ⟨_, rfl⟩ (.inr ⟨len, raw, rfl⟩)
  | ack | nak | can | unknown => simp [encodeFrame]

end Sys2Proof.Claims
end

section
/-! The receive path of 41_receive.md: one byte more completes at most one frame (R130, R138), each form of frame has its answer
(R133 to R137), and a valid SOF frame with the head's function code settles it, is retained, or overflows (R165 to R167). -/

namespace Sys2Proof.Machine

open Sys2Proof.Claims

/-! ### one byte more -/

/-- DECODE takes no more bytes than there are. -/
theorem decodeFrame_le_length {b : List Byte} {f : Frame} {n : Nat} (h : decodeFrame b = some (f, n)) : n ≤ b.length := by
  obtain ⟨incomplete, _⟩ | ⟨_, _, h', _, hn⟩ := decodeFrame_cases b
  · cases h.symm.trans incomplete
  · cases h.symm.trans h'
    exact hn

/-- A frame that one byte more completes takes the whole buffer: a shorter one would have been there without the byte. -/
theorem length_of_completed {buf : List Byte} {b : Byte} {f : Frame} {n : Nat} (hbuf : incompleteBuffer buf)
    (h : decodeFrame (buf ++ [b]) = some (f, n)) : n = (buf ++ [b]).length := by
  refine (decodeFrame_le_length h).antisymm (Nat.not_lt.mp fun shorter => ?_)
  have within : n ≤ buf.length := by simpa [Nat.lt_succ_iff] using shorter
  have front := decodeFrame_take_self h
  rw [List.take_append_of_le_length within] at front
  have early := decodeFrame_append (buf.drop n) front
  rw [List.take_append_drop, (decodeFrame_none_iff buf).mpr hbuf] at early
  cases early

/-- The byte that completes a frame leaves nothing in the buffer (R138). -/
theorem extractFrames_completed {buf : List Byte} {b : Byte} {f : Frame} {n : Nat} (hbuf : incompleteBuffer buf)
    (h : decodeFrame (buf ++ [b]) = some (f, n)) : extractFrames (buf ++ [b]) = ([f], []) := by
  rw [extractFrames_some h, length_of_completed hbuf h, List.drop_length, extractFrames_none decodeFrame_nil]

theorem rxByte_incomplete {s : State} {b : Byte} (h : decodeFrame (s.rxbuf ++ [b]) = none) :
    rxByte b s = s.setRxbuf (s.rxbuf ++ [b]) := by
  rw [rxByte_eq, extractFrames_none h, List.foldl_nil]

theorem rxByte_completed {s : State} {b : Byte} {f : Frame} {n : Nat} (hbuf : incompleteBuffer s.rxbuf)
    (h : decodeFrame (s.rxbuf ++ [b]) = some (f, n)) : rxByte b s = processFrame (s.setRxbuf []) f := by
  rw [rxByte_eq, extractFrames_completed hbuf h, List.foldl_cons, List.foldl_nil]

/-! ### frames that are answered and discarded -/

theorem sofInvalid_eq (f : Sof) (s : State) :
    sofInvalid f s = { s with out := s.out ++ [.tx [0x15#8], .log (.checksumInvalid f.func f.checksum)] } :=
  emits_eq [.tx [0x15#8], .log (.checksumInvalid f.func f.checksum)] s

theorem malformedReceived_eq (len : Byte) (s : State) :
    malformedReceived len s = { s with out := s.out ++ [.tx [0x15#8], .log (.malformedFrame len)] } :=
  emits_eq [.tx [0x15#8], .log (.malformedFrame len)] s

/-! ### the head leaves the queue -/

theorem headLeft_emit (s : State) (x : Emission) (q : List Entry) (pre : List Emission) :
    headLeft (s.emit x) q pre = headLeft s q (x :: pre) := by
  cases q <;> simp [headLeft, State.emit]

theorem headLeft_setQueue (s : State) (q' q : List Entry) (pre : List Emission) :
    headLeft (s.setQueue q') q pre = headLeft s q pre := by
  cases q <;> rfl

/-- Settle completes the head and then starts the next one, if there is one (R170, R171). -/
theorem settle_eq_headLeft {st : Status} {s : State} {e : Entry} {q : List Entry} (h : s.queue = e :: q) :
    settle st s = headLeft s q [.compl ⟨e.tag, st, completionFrames st e⟩] := by
  rw [settle_cons h]
  cases q with
  | nil => exact startHead_nil rfl
  | cons next q => exact startHead_cons rfl

/-! ### a valid SOF frame with the head's function code -/

/-- The four rows that present a valid SOF frame do what R132 says of it. -/
theorem exec_presented {s : State} {i : Instr} {f : Sof} (h : PresentsValidSof s.cfg i f) :
    exec i s = .next (sofValid f s) := by
  cases h with
  | sof f hv => exact congrArg _ (sofReceived_valid hv s)
  | kindReq | kindRes | kindOther => rfl

section
variable {s : State} {f : Sof} {e : Entry} {q : List Entry} (hq : s.queue = e :: q) (hfunc : f.func = e.func)
include hq hfunc

theorem correlate_settles (hs : settlesOn s.cfg e f = true) :
    correlate f s = headLeft s q [.compl ⟨e.tag, .success, e.resp ++ [f]⟩] := by
  rw [correlate_cons hq, if_pos hfunc, if_pos hs, settle_eq_headLeft (setQueue_queue _ _), headLeft_setQueue]
  rfl

theorem correlate_retains (hs : ¬ settlesOn s.cfg e f = true) (room : e.resp.length + 1 < s.cfg.respDepth) :
    correlate f s = s.setQueue ({ e with resp := e.resp ++ [f] } :: q) := by
  rw [correlate_cons hq, if_pos hfunc, if_neg hs, if_pos (Nat.lt_sub_of_add_lt room)]

theorem correlate_overflows (hs : ¬ settlesOn s.cfg e f = true) (full : s.cfg.respDepth ≤ e.resp.length + 1) :
    correlate f s = s.raise (.responseOverflow e.tag f.func) := by
  rw [correlate_cons hq, if_pos hfunc, if_neg hs, if_neg (by omega)]

end

/-- A multi head is not settled by a frame of another kind than P_KIND_REQ (R166). -/
theorem not_settlesOn {c : Cfg} {e : Entry} {f : Sof} (multi : e.multi = true) (kind : f.kind ≠ c.kindReq) :
    ¬ settlesOn c e f = true := by
  simp [settlesOn_iff, multi, kind]

end Sys2Proof.Machine

namespace Sys2Proof.Claims

open Sys2Proof.Machine

/-- Settles O16: the ACK, then Correlate's settling case. -/
theorem matchingFrameSettlesHead : Obligations.MatchingFrameSettlesHead := by
  intro s i f e q hf hq hfunc hs
  rw [exec_presented hf, sofValid, correlate_settles (s := s.emit _) hq hfunc ((settlesOn_iff _ _ _).mpr hs), headLeft_emit]

/-- Settles O17: the ACK, then Correlate's retaining case. -/
theorem nonRequestFrameIsRetained : Obligations.NonRequestFrameIsRetained := by
  intro s i f e q hf hq hfunc multi kind room
  rw [exec_presented hf, sofValid, correlate_retains (s := s.emit _) hq hfunc (not_settlesOn multi kind) room]
  rfl

/-- Settles O18: the ACK, then Correlate's overflow case. -/
theorem responseOverflowIsLogged : Obligations.ResponseOverflowIsLogged := by
  intro s i f e q hf hq hfunc multi kind full
  rw [exec_presented hf, sofValid, correlate_overflows (s := s.emit _) hq hfunc (not_settlesOn multi kind) full]
  exact congrArg _ (emits_eq [.tx [0x06#8], .log (.responseOverflow e.tag f.func)] s)

/-- Settles O21: what the byte completes is one frame with nothing left, and its row is ProcessFrame. -/
theorem rxByteRunsTheCompletedFrame : Obligations.RxByteRunsTheCompletedFrame := by
  intro s b hbuf
  constructor
  · intro h
    exact congrArg _ (rxByte_incomplete h)
  · intro f n h
    refine ⟨rxByte b s, rfl, ?_⟩
    rw [rxByte_completed hbuf h]
    exact exec_instrOfFrame (decodeFrame_malformedFits h) _

/-- Settles O22, by whether the byte completes a frame. -/
theorem atMostOneFramePerByte : Obligations.AtMostOneFramePerByte := by
  intro buf b hbuf
  constructor
  · cases h : decodeFrame (buf ++ [b]) with
    | none => exact .inl ⟨(decodeFrame_none_iff _).mp h, extractFrames_none h⟩
    | some r => exact .inr ⟨r.1, extractFrames_completed hbuf h⟩
  · intro _ notSof
    have one := decodeFrame_ctrl b [] notSof
    exact ⟨ctrlFrame b, one, extractFrames_completed (.inl rfl) one⟩

/-- Settles O13. -/
theorem invalidSofIsNaked : Obligations.InvalidSofIsNaked := by
  intro s f wrong
  have invalid : validateChecksum (.sof f) = false := decide_eq_false wrong
  rw [← sofInvalid_eq, ← sofReceived_invalid invalid]
  rfl

/-- Settles O14: the three rows are `malformedReceived` of their length byte. -/
theorem malformedSofIsNaked : Obligations.MalformedSofIsNaked := fun s _ _ =>
  ⟨congrArg _ (malformedReceived_eq 0x00#8 s), congrArg _ (malformedReceived_eq 0x01#8 s),
    congrArg _ (malformedReceived_eq 0x02#8 s)⟩

/-- Settles O15: ACK is no change, and the other rows are one emission each. -/
theorem oneByteFramesAreOnlyLogged : Obligations.OneByteFramesAreOnlyLogged :=
  fun _ _ => ⟨rfl, rfl, rfl, rfl⟩

end Sys2Proof.Claims
end

section
/-! The dispatcher of 42_dispatcher.md, operation by operation: every case of DISPATCH (R161 to R164) and of CANCEL (R174 to R176),
and what reception does with a frame that matches no request (R168) or completes a multi request (R179). -/

namespace Sys2Proof.Machine

open Sys2Proof.Claims

/-! ### DISPATCH, case by case (R161) -/

theorem exec_dispatchRow {kind func : Byte} {payload : List Byte} {i : Instr} (hi : i ∈ dispatchRows kind func payload)
    (s : State) : exec i s = .next (dispatch (encode s.cfg i) kind func payload s) := by
  obtain rfl | rfl : i = .evDispatch kind func payload ∨ i = .hostDispatch kind func payload := by
    simpa [dispatchRows] using hi
  · rfl
  · rfl

/-- The state in which an accepted DISPATCH has queued its entry and replied, before a head is started. -/
def queued (kind func : Byte) (payload : List Byte) (s : State) : State :=
  ((allocTag s).2.setQueue (s.queue ++ [newEntry s.cfg (BitVec.ofNat 8 (allocTag s).1) kind func payload])).emit
    (.reply (.accepted (BitVec.ofNat 8 (allocTag s).1)))

section
variable {again : Input} {kind func : Byte} {payload : List Byte} {s : State}

theorem dispatch_held (full : s.cfg.queueDepth ≤ s.queue.length) :
    dispatch again kind func payload s = s.setOffered (again :: s.offered) := by
  simp [dispatch, queueHasRoom, full]

theorem dispatch_tooLong (room : s.queue.length < s.cfg.queueDepth) (long : payloadMax < payload.length) :
    dispatch again kind func payload s =
      { s with out := s.out ++ [.reply (.refused .length), .log (.requestTooLong payload.length)] } := by
  simp only [dispatch, queueHasRoom, room, decide_true, if_true, dispatchEnabled, gt_iff_lt, long]
  exact emits_eq [.reply (.refused .length), .log (.requestTooLong payload.length)] s

/-- Only an entry that comes to an empty queue is started. -/
theorem dispatch_accepted (room : s.queue.length < s.cfg.queueDepth) (short : payload.length ≤ payloadMax) :
    dispatch again kind func payload s =
      if s.queue = [] then startHead (queued kind func payload s) else queued kind func payload s := by
  simp only [dispatch, queueHasRoom, room, decide_true, if_true, dispatchEnabled, gt_iff_lt, Nat.not_lt.mpr short, if_false]
  by_cases idle : s.queue = [] <;> simp [idle, allocTag_state, queued]

end

/-! ### AllocTag (R162) -/

theorem allocTag_idle {s : State} (idle : s.queue = []) : (allocTag s).1 = s.nextTag := by
  obtain ⟨fuel, hfuel⟩ := Nat.exists_eq_add_one_of_ne_zero (Nat.two_pow_pos s.cfg.tagWidth).ne'
  simp [allocTag, idle, tagsInUse, hfuel, firstFreeTag]

/-- Fewer tags in use than there are candidates, which are different bytes, leave one of them free. -/
theorem exists_free_candidate {used : List Byte} {m t : Nat} (few : used.length < m) (bytes : m ≤ 256) :
    ∃ j < m, BitVec.ofNat 8 ((t + j) % m) ∉ used := by
  by_contra! all_used
  have positive : 0 < m := by omega
  have distinct : Set.InjOn (fun j => BitVec.ofNat 8 ((t + j) % m)) (Finset.range m) := by
    intro a ha b hb hab
    have la := Nat.mod_lt (t + a) positive
    have lb := Nat.mod_lt (t + b) positive
    have same : (t + a) % m = (t + b) % m := by
      have h := congrArg BitVec.toNat hab
      simpa [Nat.mod_eq_of_lt (la.trans_le bytes), Nat.mod_eq_of_lt (lb.trans_le bytes)] using h
    have h : a % m = b % m := Nat.ModEq.add_left_cancel' t same
    simp at ha hb
    rwa [Nat.mod_eq_of_lt ha, Nat.mod_eq_of_lt hb] at h
  have pigeons := Finset.card_le_card_of_injOn (t := used.toFinset) _
    (fun j hj => List.mem_toFinset.mpr (all_used j (Finset.mem_range.mp hj))) distinct
  rw [Finset.card_range] at pigeons
  exact absurd (pigeons.trans used.toFinset_card_le) (Nat.not_le.mpr few)

/-- With a free candidate AllocTag answers the first one. -/
theorem allocTag_first {s : State} (hnext : s.nextTag < 2 ^ s.cfg.tagWidth)
    (free : ∃ j < 2 ^ s.cfg.tagWidth, BitVec.ofNat 8 ((s.nextTag + j) % 2 ^ s.cfg.tagWidth) ∉ tagsInUse s.queue) :
    ∃ k < 2 ^ s.cfg.tagWidth, (allocTag s).1 = (s.nextTag + k) % 2 ^ s.cfg.tagWidth ∧
      BitVec.ofNat 8 ((s.nextTag + k) % 2 ^ s.cfg.tagWidth) ∉ tagsInUse s.queue ∧
      ∀ j < k, BitVec.ofNat 8 ((s.nextTag + j) % 2 ^ s.cfg.tagWidth) ∈ tagsInUse s.queue := by
  obtain ⟨k, _, hk, before, at_k⟩ :=
    firstFreeTag_spec (tagsInUse s.queue) (2 ^ s.cfg.tagWidth) (2 ^ s.cfg.tagWidth) s.nextTag hnext
  obtain ⟨j, hj, hfree⟩ := free
  have bound : k < 2 ^ s.cfg.tagWidth := by
    by_contra past
    exact hfree (before j (hj.trans_le (Nat.not_lt.mp past)))
  exact ⟨k, bound, hk, at_k bound, before⟩

/-! ### CANCEL, case by case (R174 to R176) -/

theorem exec_cancelRow {tag : Byte} {i : Instr} (hi : i ∈ cancelRows tag) (s : State) : exec i s = .next (cancel tag s) := by
  obtain rfl | rfl : i = .evCancel tag ∨ i = .hostCancel tag := by simpa [cancelRows] using hi
  · rfl
  · rfl

theorem cancel_head {s : State} {e : Entry} {q : List Entry} (h : s.queue = e :: q) :
    cancel e.tag s =
      headLeft s q [.reply (.accepted e.tag), .log (.externalCancel e.tag), .compl ⟨e.tag, .cancelled, []⟩] := by
  rw [cancel, cancelTag_head (s := s.emit _) h, raise_eq, settle_eq_headLeft (s := (s.emit _).emit _) h, headLeft_emit,
    headLeft_emit]
  rfl

theorem cancel_behind {s : State} {h e : Entry} {q1 q2 : List Entry} (hq : s.queue = h :: (q1 ++ e :: q2))
    (hh : h.tag ≠ e.tag) (h1 : ∀ x ∈ q1, x.tag ≠ e.tag) :
    cancel e.tag s =
      { s with
        queue := h :: (q1 ++ q2),
        out := s.out ++ [.reply (.accepted e.tag), .compl ⟨e.tag, .cancelled, []⟩, .log (.externalCancel e.tag)] } := by
  rw [cancel, cancelTag_behind (s := s.emit _) hq hh h1]
  exact emits_eq [.reply (.accepted e.tag), .compl ⟨e.tag, .cancelled, []⟩, .log (.externalCancel e.tag)]
    (s.setQueue (h :: (q1 ++ q2)))

theorem cancel_unknown {s : State} {t : Byte} (h : t ∉ tagsInUse s.queue) :
    cancel t s = s.emit (.reply (.accepted t)) :=
  cancelTag_unknown (s := s.emit _) h

/-- A tag is in no entry of a queue, or in a first one. -/
theorem tag_unknown_or_first (t : Byte) (q : List Entry) :
    t ∉ tagsInUse q ∨ ∃ q1 e q2, q = q1 ++ e :: q2 ∧ e.tag = t ∧ ∀ x ∈ q1, x.tag ≠ t := by
  cases found : q.find? (fun x => x.tag == t) with
  | none => exact .inl (by simpa [tagsInUse] using found)
  | some e =>
    obtain ⟨he, q1, q2, hq, before⟩ := List.find?_eq_some_iff_append.mp found
    exact .inr ⟨q1, e, q2, hq, by simpa using he, by simpa using before⟩

/-! ### what has changed once the head has left (R170, R171) -/

@[simp] theorem headLeft_queue (s : State) (q : List Entry) (pre : List Emission) : (headLeft s q pre).queue = q := by
  cases q <;> rfl

@[simp] theorem headLeft_compl (s : State) (q : List Entry) (pre : List Emission) :
    (headLeft s q pre).compl = s.compl ++ pre.flatMap complOf := by
  cases q <;> simp [headLeft, State.compl, complOf]

end Sys2Proof.Machine

namespace Sys2Proof.Claims

open Sys2Proof.Machine

/-- Settles O19: the ACK, then Correlate's case of no matching head. -/
theorem unmatchedFrameIsUnsolicited : Obligations.UnmatchedFrameIsUnsolicited := by
  intro s i f hf unmatched
  have unsolicited : correlate f (s.emit (.tx [0x06#8])) = (s.emit (.tx [0x06#8])).emit (.unsol f) := by
    cases hq : s.queue with
    | nil => exact correlate_nil hq
    | cons e q => rw [correlate_cons (s := s.emit _) hq, if_neg (unmatched e q hq)]
  rw [exec_presented hf, sofValid, unsolicited]
  exact congrArg _ (emits_eq [.tx [0x06#8], .unsol f] s)

/-- Settles O20: the first frame is retained (R165) and the second settles; with a head that is not multi the first settles. -/
theorem multiResponseLaw : Obligations.MultiResponseLaw := by
  constructor
  · intro s e q f g depth kinds hq multi noResp hf hffunc hfkind hg hgfunc hgkind
    have notRequest : f.kind ≠ s.cfg.kindReq := by rw [hfkind]; exact kinds.symm
    have room : e.resp.length + 1 < s.cfg.respDepth := by rw [noResp]; exact depth
    refine ⟨_, _, nonRequestFrameIsRetained s _ f e q (.sof f hf) hq hffunc multi notRequest room, ?_, ?_,
      matchingFrameSettlesHead _ _ g { e with resp := e.resp ++ [f] } q (.sof g hg) rfl hgfunc (.inr hgkind), ?_, ?_⟩
    · simp [noResp]
    · simp [State.compl, complOf]
    · simp
    · rw [headLeft_compl]
      simp [State.compl, complOf, noResp]
  · intro s e q f hq single noResp hf hffunc
    refine ⟨_, matchingFrameSettlesHead s _ f e q (.sof f hf) hq hffunc (.inl single), ?_, ?_⟩
    · simp
    · simp [complOf, noResp]

/-- Settles O28. -/
theorem cancelOfHeadSettlesIt : Obligations.CancelOfHeadSettlesIt := by
  intro s e q hq i hi
  rw [exec_cancelRow hi, cancel_head hq]

/-- Settles O29. -/
theorem cancelBehindHeadRemovesIt : Obligations.CancelBehindHeadRemovesIt := by
  intro s h e q1 q2 hq hh h1 i hi
  rw [exec_cancelRow hi, cancel_behind hq hh h1]

/-- Settles O30. -/
theorem cancelOfUnknownTagOnlyReplies : Obligations.CancelOfUnknownTagOnlyReplies := by
  intro s tag htag i hi
  rw [exec_cancelRow hi, cancel_unknown htag]
  rfl

/-- Settles O27. -/
theorem dispatchIsHeldWhenFull : Obligations.DispatchIsHeldWhenFull := by
  intro s kind func payload full i hi
  rw [exec_dispatchRow hi, dispatch_held full]
  rfl

/-- Settles O26. -/
theorem dispatchTooLongIsRefused : Obligations.DispatchTooLongIsRefused := by
  intro s kind func payload room long i hi
  rw [exec_dispatchRow hi, dispatch_tooLong room long]

/-- Settles O24: with no tag in use the first candidate is free, and the new entry is the head that starts. -/
theorem dispatchIntoIdleTransmits : Obligations.DispatchIntoIdleTransmits := by
  intro s kind func payload idle depth short i hi
  have room : s.queue.length < s.cfg.queueDepth := by rw [idle]; exact depth
  have head : (queued kind func payload s).queue = [newEntry s.cfg (BitVec.ofNat 8 s.nextTag) kind func payload] := by
    simp [queued, allocTag_idle idle, idle]
  rw [exec_dispatchRow hi, dispatch_accepted room short, if_pos idle, startHead_cons head, requestBytes_eq _ short]
  simp [queued, allocTag_state, allocTag_idle idle, idle, newEntry, State.emit, State.setQueue, State.setTimer, State.setNextTag,
    sofBytes]

/-- Settles O25: fewer entries than tags leave a candidate free, and AllocTag answers the first. -/
theorem dispatchBehindBusyQueues : Obligations.DispatchBehindBusyQueues := by
  intro s kind func payload valid hnext busy room short
  obtain ⟨-, -, -, -, -, -, -, -, depth⟩ := (cfg_valid_iff _).mp valid
  have few : (tagsInUse s.queue).length < 2 ^ s.cfg.tagWidth := by
    rw [tagsInUse, List.length_map]
    exact room.trans_le depth
  obtain ⟨k, hk, tag, free, before⟩ := allocTag_first hnext (exists_free_candidate few (tags_le valid))
  refine ⟨k, hk, free, before, fun i hi => ?_⟩
  rw [exec_dispatchRow hi, dispatch_accepted room short, if_neg busy, queued, allocTag_state, tag]
  rfl

end Sys2Proof.Claims
end

section
/-! What every step keeps of the queue and its traces: each tag that DISPATCH handed out is queued or completed, once (R172), and
of the requests only the head's is transmitted (R160, R173). Both follow from one relation, `Served`, that every operation on the
queue but DISPATCH meets. -/

namespace Sys2Proof.Machine

open Sys2Proof.Claims

/-! ### the request of the head, as the operations on the head transmit it -/

/-- The request of the entry at the head; no bytes where there is none. -/
def headRequest : List Entry → List Byte
  | [] => []
  | e :: _ => requestBytes e

@[simp] theorem headLeft_tx (s : State) (q : List Entry) (pre : List Emission) :
    (headLeft s q pre).tx = s.tx ++ pre.flatMap txOf ++ headRequest q := by
  cases q <;> simp [headLeft, State.tx, txOf, headRequest]

@[simp] theorem startHead_tx (s : State) : (startHead s).tx = s.tx ++ headRequest s.queue := by
  cases hq : s.queue with
  | nil => simp [startHead_nil hq, headRequest]
  | cons e q => simp [startHead_cons hq, headRequest]

@[simp] theorem startHead_reply (s : State) : (startHead s).reply = s.reply := by
  unfold startHead
  split <;> simp

/-! ### what serving the queue keeps (R172, R173) -/

/-- The tags that are completed or queued. -/
def accounted (s : State) : List Byte := s.compl.map (·.tag) ++ tagsInUse s.queue

/-- What a step transmits beside requests: nothing, an ACK or a NAK (R132 to R134). -/
def IsControl (bs : List Byte) : Prop := bs = [] ∨ bs = [0x06#8] ∨ bs = [0x15#8]

/-- `control` is transmitted, and behind it nothing or the request of the entry that is then the head. -/
def Transmits (control : List Byte) (s t : State) : Prop :=
  t.tx = s.tx ++ control ∨ t.tx = s.tx ++ control ++ headRequest t.queue

/-- From `s` to `t` no tag is lost or made up, no request comes into the queue, and of the requests at most the head's is
transmitted, behind `control`. -/
structure Served (control : List Byte) (s t : State) : Prop where
  accounts : (accounted t).Perm (accounted s)
  requests : t.queue.map requestBytes ⊆ s.queue.map requestBytes
  transmits : Transmits control s t

/-- Neither COMPL, TX nor the tags and requests of the queue change. -/
structure Unmoved (s t : State) : Prop where
  compl : t.compl = s.compl
  tx : t.tx = s.tx
  tags : tagsInUse t.queue = tagsInUse s.queue
  requests : t.queue.map requestBytes = s.queue.map requestBytes

theorem Unmoved.served {s t : State} (h : Unmoved s t) : Served [] s t where
  accounts := by rw [accounted, h.compl, h.tags]; exact .refl _
  requests := h.requests ▸ List.Subset.refl _
  transmits := .inl (by rw [h.tx, List.append_nil])

/-- A change that leaves COMPL, TX, tags and requests alone, in front of what is served, does not count. -/
theorem Served.after {control : List Byte} {s r t : State} (h : Unmoved s r) (g : Served control r t) : Served control s t where
  accounts := by
    have same : accounted r = accounted s := by rw [accounted, h.compl, h.tags]; rfl
    exact same ▸ g.accounts
  requests := h.requests ▸ g.requests
  transmits := by
    have sent := g.transmits
    rwa [Transmits, h.tx] at sent

/-- A control byte in front of what is transmitted. -/
theorem Served.after_control {control : List Byte} {s t : State} (g : Served [] (s.emit (.tx control)) t) :
    Served control s t where
  accounts := by simpa [accounted] using g.accounts
  requests := g.requests
  transmits := by simpa [Transmits] using g.transmits

theorem unmoved_refl (s : State) : Unmoved s s := ⟨rfl, rfl, rfl, rfl⟩

theorem unmoved_log (s : State) (e : LogEvent) : Unmoved s (s.emit (.log e)) := ⟨by simp, by simp, rfl, rfl⟩

theorem unmoved_reply (s : State) (r : Reply) : Unmoved s (s.emit (.reply r)) := ⟨by simp, by simp, rfl, rfl⟩

theorem unmoved_unsol (s : State) (f : Sof) : Unmoved s (s.emit (.unsol f)) := ⟨by simp, by simp, rfl, rfl⟩

theorem unmoved_codec (s : State) (r : CodecResult) : Unmoved s (s.emit (.codec r)) := ⟨by simp, by simp, rfl, rfl⟩

theorem unmoved_setTimer (s : State) (rt retries : Nat) (armed : Bool) (ht : Nat) :
    Unmoved s (s.setTimer rt retries armed ht) := ⟨rfl, rfl, rfl, rfl⟩

theorem Unmoved.trans {a b c : State} (h : Unmoved a b) (g : Unmoved b c) : Unmoved a c :=
  ⟨g.compl.trans h.compl, g.tx.trans h.tx, g.tags.trans h.tags, g.requests.trans h.requests⟩

/-- Retaining a frame changes neither the tag nor the request of the head. -/
theorem unmoved_retain {s : State} {e : Entry} {q : List Entry} (hq : s.queue = e :: q) (resp : List Sof) :
    Unmoved s (s.setQueue ({ e with resp := resp } :: q)) :=
  ⟨rfl, rfl, by rw [hq]; rfl, by rw [hq]; rfl⟩

/-- The head leaves the queue as it is completed, so its tag only changes its place. -/
theorem served_headLeft {s : State} {e : Entry} {q : List Entry} (hq : s.queue = e :: q) {pre : List Emission}
    (completes : (pre.flatMap complOf).map (·.tag) = [e.tag]) (sends : pre.flatMap txOf = []) :
    Served [] s (headLeft s q pre) where
  accounts := by
    rw [accounted, headLeft_compl, List.map_append, completes]
    simp [accounted, hq, tagsInUse]
  requests := by simp [hq]
  transmits := .inr (by simp [sends])

theorem served_settle (st : Status) (s : State) : Served [] s (settle st s) := by
  cases hq : s.queue with
  | nil => rw [settle_nil hq]; exact (unmoved_refl s).served
  | cons e q => rw [settle_eq_headLeft hq]; exact served_headLeft hq rfl rfl

theorem served_correlate (f : Sof) (s : State) : Served [] s (correlate f s) := by
  cases hq : s.queue with
  | nil => rw [correlate_nil hq]; exact (unmoved_unsol s f).served
  | cons e q =>
    rw [correlate_cons hq]
    split_ifs
    · exact (served_settle _ _).after (unmoved_retain hq _)
    · exact (unmoved_retain hq _).served
    · exact (unmoved_log s _).served
    · exact (unmoved_unsol s f).served

theorem served_processFrame (s : State) (f : Frame) :
    ∃ control, IsControl control ∧ Served control s (processFrame s f) := by
  cases f with
  | sof f =>
    cases hv : validateChecksum (.sof f) with
    | true =>
      rw [processFrame, sofReceived_valid hv]
      exact ⟨[0x06#8], .inr (.inl rfl), (served_correlate f _).after_control⟩
    | false =>
      rw [processFrame, sofReceived_invalid hv]
      exact ⟨[0x15#8], .inr (.inr rfl), (unmoved_log _ _).served.after_control⟩
  | malformed => exact ⟨[0x15#8], .inr (.inr rfl), (unmoved_log _ _).served.after_control⟩
  | ack => exact ⟨[], .inl rfl, (unmoved_refl s).served⟩
  | nak | can | unknown => exact ⟨[], .inl rfl, (unmoved_log s _).served⟩

theorem served_cancel (tag : Byte) (s : State) : Served [] s (cancel tag s) := by
  obtain unknown | ⟨q1, e, q2, hq, rfl, before⟩ := tag_unknown_or_first tag s.queue
  · rw [cancel_unknown unknown]
    exact (unmoved_reply s _).served
  · cases q1 with
    | nil => rw [cancel_head hq]; exact served_headLeft hq rfl rfl
    | cons h q1 =>
      obtain ⟨hh, h1⟩ := List.forall_mem_cons.mp before
      rw [cancel_behind hq hh h1]
      refine ⟨?_, ?_, .inl ?_⟩
      · have out_of_place : (e.tag :: h.tag :: (tagsInUse q1 ++ tagsInUse q2)).Perm
            (h.tag :: (tagsInUse q1 ++ e.tag :: tagsInUse q2)) :=
          (List.Perm.swap _ _ _).trans (List.perm_middle.symm.cons _)
        simpa [accounted, State.compl, complOf, tagsInUse, hq] using out_of_place.append_left (s.compl.map (·.tag))
      · simp only [hq]
        exact List.map_subset _ (((List.sublist_cons_self e q2).append_left q1).cons_cons h).subset
      · simp [State.tx, txOf]

theorem served_tick (s : State) : Served [] s (tick s) := by
  cases hq : s.queue with
  | nil => rw [tick_nil hq]; exact (unmoved_refl s).served
  | cons e q =>
    cases armed : s.htArmed with
    | true =>
      rw [tick_expiring hq armed, tickExpiring]
      split_ifs
      · exact (served_settle _ _).after ((unmoved_setTimer _ _ _ _ _).trans (unmoved_log _ _))
      · exact (unmoved_setTimer _ _ _ _ _).served
    | false =>
      rw [tick_timing hq armed, tickTiming]
      split_ifs
      · exact ⟨by simp [retransmit, accounted], List.Subset.refl _, .inr (by simp [retransmit, hq, headRequest])⟩
      · exact ((unmoved_setTimer _ _ _ _ _).trans ((unmoved_setTimer _ _ _ _ _).trans (unmoved_log _ _))).served
      · exact (unmoved_setTimer _ _ _ _ _).served

/-! ### DISPATCH is the one source of tags and requests -/

theorem accounted_startHead (s : State) : accounted (startHead s) = accounted s := by simp [accounted]

section
variable (kind func : Byte) (payload : List Byte) (s : State)

theorem queued_reply : (queued kind func payload s).reply = s.reply ++ [.accepted (BitVec.ofNat 8 (allocTag s).1)] := by
  simp [queued, allocTag_state]

theorem queued_tx : (queued kind func payload s).tx = s.tx := by simp [queued, allocTag_state]

theorem accounted_queued :
    accounted (queued kind func payload s) = accounted s ++ [BitVec.ofNat 8 (allocTag s).1] := by
  simp [accounted, queued, allocTag_state, tagsInUse, newEntry]

variable (again : Input)

/-- The tags that are completed or queued grow by the tag of the Accepted reply (R82, R161). -/
theorem accounted_dispatch :
    accounted (dispatch again kind func payload s) =
      accounted s ++ ((dispatch again kind func payload s).reply.drop s.reply.length).flatMap acceptedTag := by
  by_cases room : s.queue.length < s.cfg.queueDepth
  · by_cases short : payload.length ≤ payloadMax
    · rw [dispatch_accepted room short]
      split_ifs
      · simp [accounted_startHead, accounted_queued, queued_reply, acceptedTag]
      · simp [accounted_queued, queued_reply, acceptedTag]
    · rw [dispatch_tooLong room (Nat.not_le.mp short)]
      simp [accounted, State.compl, complOf, State.reply, replyOf, acceptedTag]
  · rw [dispatch_held (Nat.not_lt.mp room)]
    simp [accounted]

theorem transmits_dispatch : Transmits [] s (dispatch again kind func payload s) := by
  by_cases room : s.queue.length < s.cfg.queueDepth
  · by_cases short : payload.length ≤ payloadMax
    · rw [dispatch_accepted room short]
      split_ifs
      · exact .inr (by simp [queued_tx])
      · exact .inl (by simp [queued_tx])
    · rw [dispatch_tooLong room (Nat.not_le.mp short)]
      exact .inl (by simp [State.tx, txOf])
  · rw [dispatch_held (Nat.not_lt.mp room)]
    exact .inl (by simp)

end

/-! ### what an instruction does to the queue, COMPL and TX -/

/-- The effects that the queue, COMPL and TX tell apart: `ExecEffect` does not say what its emissions are. -/
inductive QueueEffect (s : State) : Instr → State → Prop where
  | served {i : Instr} {control : List Byte} {t : State} (other : ¬ isDispatch i) (hc : IsControl control)
      (h : Served control s t) : QueueEffect s i t
  | rxByte (b : Byte) : QueueEffect s (.evRxByte b) (rxByte b s)
  | dispatch {i : Instr} (again : Input) (kind func : Byte) (payload : List Byte) (hi : isDispatch i) :
      QueueEffect s i (dispatch again kind func payload s)
  | reset : QueueEffect s .evReset (resetS s)

theorem queueEffect_frame {i : Instr} (other : ¬ isDispatch i) (s : State) (f : Frame) :
    QueueEffect s i (processFrame s f) := by
  obtain ⟨control, hc, h⟩ := served_processFrame s f
  exact .served other hc h

/-- The KIND rows process a valid frame (R132). -/
theorem queueEffect_sofValid {i : Instr} (other : ¬ isDispatch i) (s : State) (kind func : Byte) (payload : List Byte) :
    QueueEffect s i (sofValid (sofOf kind func payload) s) := by
  rw [← sofReceived_valid (validate_sofOf kind func payload)]
  exact queueEffect_frame other s (.sof _)

theorem queueEffect_quiet {i : Instr} (other : ¬ isDispatch i) {s t : State} (h : Unmoved s t) : QueueEffect s i t :=
  .served other (.inl rfl) h.served

theorem unmoved_seqNext (s : State) : Unmoved s (seqNext s) := ⟨by simp [seqNext], by simp [seqNext], rfl, rfl⟩

theorem unmoved_reservedCommand (op : Byte) (s : State) : Unmoved s (reservedCommand op s) :=
  (unmoved_reply s _).trans (unmoved_log _ _)

theorem exec_queueEffect {i : Instr} {s t : State} (he : exec i s = .next t) : QueueEffect s i t := by
  cases i with
  | sof f => cases he; exact queueEffect_frame id s (.sof f)
  | sofMalformedLen01 body =>
    cases body with
    | none => cases he; exact queueEffect_frame id s (.malformed 0x00#8 [])
    | some => cases he; exact queueEffect_frame id s (.malformed 0x01#8 [])
  | sofMalformedLen2 => cases he; exact queueEffect_frame id s (.malformed 0x02#8 [])
  | ack => cases he; exact queueEffect_frame id s .ack
  | nak => cases he; exact queueEffect_frame id s .nak
  | can => cases he; exact queueEffect_frame id s .can
  | unknownHeader x => cases he; exact queueEffect_frame id s (.unknown x)
  | kindReq | kindRes | kindOther => cases he; exact queueEffect_sofValid id s _ _ _
  | evRxByte b => cases he; exact .rxByte b
  | evTick => cases he; exact .served id (.inl rfl) (served_tick s)
  | evDispatch kind func payload | hostDispatch kind func payload => cases he; exact .dispatch _ kind func payload trivial
  | evCancel tag | hostCancel tag => cases he; exact .served id (.inl rfl) (served_cancel tag s)
  | evReset => cases he; exact .reset
  | evNop | hostNop => cases he; exact queueEffect_quiet id (unmoved_refl s)
  | evSeqNext | hostSeqNext => cases he; exact queueEffect_quiet id (unmoved_seqNext s)
  | evReserved | hostReserved => cases he; exact queueEffect_quiet id (unmoved_reservedCommand _ s)
  | codecEncode | codecDecode | codecExtract | codecValidate => cases he; exact queueEffect_quiet id (unmoved_codec s _)

/-! ### every tag is queued or completed (R172) -/

theorem accounted_processFrames (fs : List Frame) (s : State) :
    (accounted (fs.foldl processFrame s)).Perm (accounted s) := by
  induction fs generalizing s with
  | nil => exact .refl _
  | cons f fs ih =>
    obtain ⟨_, _, h⟩ := served_processFrame s f
    exact (ih _).trans h.accounts

theorem acceptedBy_other {i : Instr} (other : ¬ isDispatch i) (s t : State) : acceptedBy i s t = [] := by
  cases i with
  | evDispatch | hostDispatch => exact absurd trivial other
  | _ => rfl

theorem acceptedBy_dispatch {i : Instr} (hi : isDispatch i) (s t : State) :
    acceptedBy i s t = (t.reply.drop s.reply.length).flatMap acceptedTag := by
  cases i with
  | evDispatch | hostDispatch => rfl
  | _ => exact hi.elim

/-! ### what is transmitted, chunk by chunk (R140, R160) -/

/-- An ACK, a NAK or the request of an entry of `q`. -/
def IsChunk (q : List Entry) (c : List Byte) : Prop := c = [0x06#8] ∨ c = [0x15#8] ∨ ∃ e ∈ q, c = requestBytes e

/-- What is transmitted from `s` to `t` are whole chunks, the requests being those of `q`. -/
def SendsChunks (q : List Entry) (s t : State) : Prop :=
  ∃ chunks : List (List Byte), t.tx = s.tx ++ chunks.flatten ∧ ∀ c ∈ chunks, IsChunk q c

theorem SendsChunks.trans {q : List Entry} {a b c : State} (h : SendsChunks q a b) (g : SendsChunks q b c) :
    SendsChunks q a c := by
  obtain ⟨hs, htx, hchunks⟩ := h
  obtain ⟨gs, gtx, gchunks⟩ := g
  exact ⟨hs ++ gs, by simp [gtx, htx], List.forall_mem_append.mpr ⟨hchunks, gchunks⟩⟩

/-- Only the requests of the entries count. -/
theorem SendsChunks.mono {p q : List Entry} {s t : State} (h : SendsChunks p s t)
    (sub : p.map requestBytes ⊆ q.map requestBytes) : SendsChunks q s t := by
  obtain ⟨chunks, htx, hchunks⟩ := h
  refine ⟨chunks, htx, fun c hc => ?_⟩
  obtain ack | nak | ⟨e, he, request⟩ := hchunks c hc
  · exact .inl ack
  · exact .inr (.inl nak)
  · obtain ⟨e', he', same⟩ := List.mem_map.mp (sub (List.mem_map_of_mem he))
    exact .inr (.inr ⟨e', he', request.trans same.symm⟩)

theorem chunks_of_control {control : List Byte} (hc : IsControl control) (q : List Entry) :
    ∃ chunks : List (List Byte), chunks.flatten = control ∧ ∀ c ∈ chunks, IsChunk q c := by
  obtain rfl | ack | nak := hc
  · exact ⟨[], rfl, by simp⟩
  · exact ⟨[control], by simp, by simp [IsChunk, ack]⟩
  · exact ⟨[control], by simp, by simp [IsChunk, nak]⟩

theorem chunks_of_headRequest (q : List Entry) :
    ∃ chunks : List (List Byte), chunks.flatten = headRequest q ∧ ∀ c ∈ chunks, IsChunk q c := by
  cases q with
  | nil => exact ⟨[], rfl, by simp⟩
  | cons e q => exact ⟨[requestBytes e], by simp [headRequest], by simp [IsChunk]⟩

theorem Transmits.sendsChunks {control : List Byte} {s t : State} (hc : IsControl control) (h : Transmits control s t) :
    SendsChunks t.queue s t := by
  obtain ⟨front, hfront, hfrontChunks⟩ := chunks_of_control hc t.queue
  obtain ⟨back, hback, hbackChunks⟩ := chunks_of_headRequest t.queue
  obtain alone | followed := h
  · exact ⟨front, by rw [alone, hfront], hfrontChunks⟩
  · exact ⟨front ++ back, by simp [followed, hfront, hback], List.forall_mem_append.mpr ⟨hfrontChunks, hbackChunks⟩⟩

/-- Frames processed in order transmit requests of entries that were queued before them. -/
theorem sendsChunks_processFrames (fs : List Frame) (s : State) : SendsChunks s.queue s (fs.foldl processFrame s) := by
  induction fs generalizing s with
  | nil => exact ⟨[], by simp, by simp⟩
  | cons f fs ih =>
    obtain ⟨control, hc, h⟩ := served_processFrame s f
    exact ((h.transmits.sendsChunks hc).mono h.requests).trans ((ih _).mono h.requests)

/-- From an incomplete buffer an RX_BYTE processes at most one frame (R138). -/
theorem transmits_rxByte {s : State} (hbuf : incompleteBuffer s.rxbuf) (b : Byte) :
    ∃ control, IsControl control ∧ Transmits control s (rxByte b s) := by
  cases completed : decodeFrame (s.rxbuf ++ [b]) with
  | none => exact ⟨[], .inl rfl, .inl (by simp [rxByte_incomplete completed])⟩
  | some r =>
    obtain ⟨control, hc, h⟩ := served_processFrame (s.setRxbuf []) r.1
    exact ⟨control, hc, rxByte_completed hbuf completed ▸ h.transmits⟩

theorem Transmits.once {control : List Byte} {s t : State} (hc : IsControl control) (h : Transmits control s t) :
    ∃ control request : List Byte, t.tx = s.tx ++ control ++ request ∧ IsControl control ∧
      (request = [] ∨ ∃ e q, t.queue = e :: q ∧ request = requestBytes e) := by
  obtain alone | followed := h
  · exact ⟨control, [], by simpa using alone, hc, .inl rfl⟩
  · refine ⟨control, headRequest t.queue, followed, hc, ?_⟩
    cases hq : t.queue with
    | nil => exact .inl rfl
    | cons e q => exact .inr ⟨e, q, rfl, rfl⟩

/-- What a step transmits from an incomplete buffer. -/
theorem exec_transmits {i : Instr} {s t : State} (he : exec i s = .next t) (hbuf : incompleteBuffer s.rxbuf) :
    ∃ control, IsControl control ∧ Transmits control s t := by
  cases exec_queueEffect he with
  | served _ hc h => exact ⟨_, hc, h.transmits⟩
  | rxByte b => exact transmits_rxByte hbuf b
  | dispatch again kind func payload => exact ⟨[], .inl rfl, transmits_dispatch kind func payload s again⟩
  | reset => exact ⟨[], .inl rfl, .inl (by simp [resetS])⟩

/-- What a step transmits in any state. -/
theorem exec_sendsChunks {i : Instr} {s t : State} (he : exec i s = .next t) : SendsChunks (s.queue ++ t.queue) s t := by
  have before : s.queue.map requestBytes ⊆ (s.queue ++ t.queue).map requestBytes := by simp
  have after : t.queue.map requestBytes ⊆ (s.queue ++ t.queue).map requestBytes := by simp
  cases exec_queueEffect he with
  | served _ hc h => exact (h.transmits.sendsChunks hc).mono after
  | rxByte b => exact (sendsChunks_processFrames _ (s.setRxbuf _)).mono before
  | dispatch again kind func payload =>
    exact ((transmits_dispatch kind func payload s again).sendsChunks (.inl rfl)).mono after
  | reset => exact ⟨[], by simp [resetS], by simp⟩

end Sys2Proof.Machine

namespace Sys2Proof.Claims

open Sys2Proof.Machine

/-- Settles O31: DISPATCH adds the tag that it hands out, and every other effect keeps the tags that are queued or completed. -/
theorem completionsAccountForEveryTag : Obligations.CompletionsAccountForEveryTag := by
  intro i s t noReset he
  change (accounted t).Perm (accounted s ++ acceptedBy i s t)
  cases exec_queueEffect he with
  | served other _ h => rw [acceptedBy_other other, List.append_nil]; exact h.accounts
  | rxByte b =>
    rw [acceptedBy_other (i := .evRxByte b) id, List.append_nil]
    exact accounted_processFrames _ (s.setRxbuf _)
  | dispatch again kind func payload hi =>
    rw [acceptedBy_dispatch hi, ← accounted_dispatch]
  | reset => exact absurd rfl noReset

/-- Settles O32: chunk by chunk in any state, and from an incomplete buffer as one control byte and one request at most. -/
theorem transmissionsAreAcksNaksAndRequests : Obligations.TransmissionsAreAcksNaksAndRequests := by
  intro i s t he
  refine ⟨exec_sendsChunks he, fun hbuf => ?_⟩
  obtain ⟨control, hc, h⟩ := exec_transmits he hbuf
  exact h.once hc

end Sys2Proof.Claims
end

section
/-! With a full queue a DISPATCH is held (R161, R255), and what is offered behind it passes it, in an input of its own (log 5) or
behind it in the same one (log 25). -/

namespace Sys2Proof.Machine

open Sys2Proof.Claims

/-- With a full queue no DISPATCH has a step. -/
theorem hasStep_dispatch_full {s : State} {i : Instr} (full : s.cfg.queueDepth ≤ s.queue.length) (hi : isDispatch i) :
    hasStep s i = false := by
  rw [Bool.eq_false_iff, ne_eq, hasStep_iff]
  exact fun room => Nat.not_lt.mpr full (room hi)

theorem length_le_fetchFuel (l : List Input) : l.length ≤ fetchFuel l := by
  induction l with
  | nil => exact le_rfl
  | cons x l ih => rw [List.length_cons, fetchFuel_cons]; omega

/-- The look goes on behind inputs that are one DISPATCH without a step each. -/
theorem fetch_passes {s : State} {held later : List Input} (ho : s.offered = held ++ later)
    (hh : ∀ x ∈ held, ∃ j, decode s.cfg x.port x.bytes = .instr j [] ∧ hasStep s j = false) :
    fetch s = fetchFrom s (fetchFuel later) held later := by
  obtain ⟨spare, hspare⟩ := Nat.exists_eq_add_of_le (length_le_fetchFuel held)
  rw [fetch, ho, fetchFuel_append, hspare, Nat.add_assoc, fetchFrom_passes held [] later _ hh, List.nil_append]
  exact fetchFrom_fuel s _ _ _ _ (by omega) le_rfl

/-- Inputs that are one DISPATCH each have no step while the queue is full. -/
theorem held_have_no_step {s : State} {held : List Input} (full : s.cfg.queueDepth ≤ s.queue.length)
    (hh : ∀ x ∈ held, ∃ j, decode s.cfg x.port x.bytes = .instr j [] ∧ isDispatch j) :
    ∀ x ∈ held, ∃ j, decode s.cfg x.port x.bytes = .instr j [] ∧ hasStep s j = false := by
  intro x hx
  obtain ⟨j, hj, dispatch⟩ := hh x hx
  exact ⟨j, hj, hasStep_dispatch_full full dispatch⟩

/-- The bytes behind a DISPATCH without a step are looked at as an input of their own (log 25). -/
theorem fetchFrom_held {s : State} {inp : Input} {i : Instr} {rest : List Byte} (passed later : List Input)
    (hd : decode s.cfg inp.port inp.bytes = .instr i rest) (hs : hasStep s i = false) :
    fetchFrom s (fetchFuel (inp :: later)) passed (inp :: later) =
      fetchFrom s (fetchFuel (leftover inp.port rest ++ later)) (passed ++ [heldPart inp rest])
        (leftover inp.port rest ++ later) := by
  have taken := (decode_held hd hs).1
  have left := fetchFuel_leftover inp.port rest
  rw [fetchFuel_cons, Nat.add_right_comm, fetchFrom]
  simp only [hd, hs, Bool.false_eq_true, if_false]
  exact fetchFrom_fuel s _ _ _ _ (by rw [fetchFuel_append]; omega) le_rfl

theorem hasStep_setOffered (s : State) (o : List Input) (i : Instr) : hasStep (s.setOffered o) i = hasStep s i := by
  cases i <;> rfl

/-- The look does not read the state's own list of offered inputs. -/
theorem fetchFrom_setOffered (s : State) (o : List Input) (fuel : Nat) (passed l : List Input) :
    fetchFrom (s.setOffered o) fuel passed l = fetchFrom s fuel passed l := by
  induction fuel generalizing passed l with
  | zero => rfl
  | succ fuel ih =>
    cases l with
    | nil => rfl
    | cons x l => simp only [fetchFrom, setOffered_cfg, hasStep_setOffered, ih]

/-- Two states that differ in what they offer and take the same from it step to the same state, or both hold. -/
theorem step_setOffered_of_fetch_eq {s : State} {o : List Input} (hc : s.cfg.valid = true)
    (same : fetch (s.setOffered o) = fetch s) :
    step s = step (s.setOffered o) ∨ (step s = .next s ∧ step (s.setOffered o) = .next (s.setOffered o)) := by
  simp only [step, stepOf, setOffered_cfg, hc, if_true, same, setOffered_setOffered]
  cases fetch s with
  | nothing => exact .inr ⟨rfl, rfl⟩
  | run | bad => exact .inl rfl

end Sys2Proof.Machine

namespace Sys2Proof.Claims

open Sys2Proof.Machine

/-- Settles O53: the look passes the held DISPATCHes, and the bytes behind one of them as if they were offered apart. -/
theorem stepPassesHeldDispatches : Obligations.StepPassesHeldDispatches := by
  constructor
  · intro s held later inp i rest hc full ho hheld hd other
    have taken := fetchFrom_cons held later hd ((hasStep_iff s i).mpr fun h => absurd h other)
    rw [step_of_run hc ((fetch_passes ho (held_have_no_step full hheld)).trans taken), List.append_assoc]
    rfl
  · rintro s s' held later p a rest i hc full ho hheld hd dispatch more rfl
    have noStep := hasStep_dispatch_full full dispatch
    have hh := held_have_no_step full hheld
    obtain ⟨-, a', ha, j, hj, hs⟩ := decode_held hd noStep
    obtain rfl := List.append_cancel_right ha
    have together : fetch s = fetchFrom s (fetchFuel (⟨p, rest⟩ :: later)) (held ++ [⟨p, a⟩]) (⟨p, rest⟩ :: later) := by
      rw [fetch_passes ho hh, fetchFrom_held (inp := ⟨p, a ++ rest⟩) held later hd noStep]
      simp [leftover, more, heldPart]
    have hh' : ∀ x ∈ held ++ [⟨p, a⟩], ∃ j, decode s.cfg x.port x.bytes = .instr j [] ∧ hasStep s j = false :=
      List.forall_mem_append.mpr ⟨hh, List.forall_mem_singleton.mpr ⟨j, hj, hs⟩⟩
    refine step_setOffered_of_fetch_eq hc (o := held ++ ⟨p, a⟩ :: ⟨p, rest⟩ :: later) (Eq.trans ?_ together.symm)
    rw [fetch_passes (held := held ++ [⟨p, a⟩]) (later := ⟨p, rest⟩ :: later) (by simp)
      (by simpa only [setOffered_cfg, hasStep_setOffered] using hh'), fetchFrom_setOffered]

end Sys2Proof.Claims
end

section
/-! The head's timer of 43_timers.md: what one TICK does in each phase (R190 to R194), that reception which does not settle leaves
the timer alone (R197), and the timeline of a head without replies (R195): whole periods that end in a retransmission, the period
that arms the hard timeout, and the count down to the cancellation. -/

namespace Sys2Proof.Machine

open Sys2Proof.Claims

/-! ### one TICK, case by case -/

/-- The next head starts from fresh timers, whatever they were. -/
@[simp] theorem headLeft_setTimer (s : State) (rt retries : Nat) (armed : Bool) (ht : Nat) (q : List Entry)
    (pre : List Emission) : headLeft (s.setTimer rt retries armed ht) q pre = headLeft s q pre := by
  cases q <;> rfl

@[simp] theorem headLeft_out (s : State) (q : List Entry) (pre : List Emission) :
    (headLeft s q pre).out = s.out ++ pre ++ (q.head?.map fun x => Emission.tx (requestBytes x)).toList := by
  cases q <;> simp [headLeft]

section
variable {s : State} {e : Entry} {q : List Entry} (hq : s.queue = e :: q)
include hq

theorem tick_counts_period (timing : s.htArmed = false) (more : 2 ≤ s.rtCount) :
    tick s = { s with rtCount := s.rtCount - 1 } := by
  have running : s.rtCount - 1 ≠ 0 := by omega
  rw [tick_timing hq timing, tickTiming, setTimer_rtCount, if_neg running]
  rfl

theorem tick_retransmits (timing : s.htArmed = false) (last : s.rtCount = 1) (retries : 1 ≤ s.retriesLeft) :
    tick s = { s with
      rtCount := s.cfg.retryInterval, retriesLeft := s.retriesLeft - 1,
      out := s.out ++ [.tx (requestBytes e), .log (.retransmit e.tag (s.cfg.retryCount - (s.retriesLeft - 1)))] } := by
  have remain : s.retriesLeft > 0 := retries
  rw [tick_timing hq timing, tickTiming, setTimer_rtCount, if_pos (by rw [last]), setTimer_retriesLeft, if_pos remain]
  simp [retransmit, State.emit, State.setTimer]

theorem tick_arms (timing : s.htArmed = false) (last : s.rtCount = 1) (exhausted : s.retriesLeft = 0) :
    tick s = { s with
      rtCount := 0, htArmed := true, htCount := s.cfg.hardTimeout, out := s.out ++ [.log (.retryExhausted e.tag)] } := by
  rw [tick_timing hq timing, tickTiming, setTimer_rtCount, if_pos (by rw [last]), setTimer_retriesLeft,
    if_neg exhausted.not_gt]
  simp [armHardTimeout, State.emit, State.setTimer, last]

theorem tick_counts_hardTimeout (expiring : s.htArmed = true) (more : 2 ≤ s.htCount) :
    tick s = { s with htCount := s.htCount - 1 } := by
  have running : s.htCount - 1 ≠ 0 := by omega
  rw [tick_expiring hq expiring, tickExpiring, setTimer_htCount, if_neg running]
  rfl

theorem hardTimeoutFire_eq :
    hardTimeoutFire e s = headLeft s q [.log (.hardTimeout e.tag), .compl ⟨e.tag, .cancelled, []⟩] := by
  rw [hardTimeoutFire, raise_eq, settle_eq_headLeft (s := s.emit _) hq, headLeft_emit]
  rfl

theorem tick_cancels (expiring : s.htArmed = true) (last : s.htCount = 1) :
    tick s = headLeft s q [.log (.hardTimeout e.tag), .compl ⟨e.tag, .cancelled, []⟩] := by
  rw [tick_expiring hq expiring, tickExpiring, setTimer_htCount, if_pos (by rw [last]),
    hardTimeoutFire_eq (s := s.setTimer s.rtCount s.retriesLeft s.htArmed (s.htCount - 1)) hq, headLeft_setTimer]

/-! ### the ticks of one period and of the hard timeout -/

theorem ticks_count_period (timing : s.htArmed = false) {j : Nat} (within : j < s.rtCount) :
    tick^[j] s = { s with rtCount := s.rtCount - j } := by
  induction j with
  | zero => rfl
  | succ j ih =>
    have more : 2 ≤ s.rtCount - j := by omega
    rw [Function.iterate_succ_apply', ih (by omega),
      tick_counts_period (s := { s with rtCount := s.rtCount - j }) hq timing more]
    rfl

theorem ticks_count_hardTimeout (expiring : s.htArmed = true) {j : Nat} (within : j < s.htCount) :
    tick^[j] s = { s with htCount := s.htCount - j } := by
  induction j with
  | zero => rfl
  | succ j ih =>
    have more : 2 ≤ s.htCount - j := by omega
    rw [Function.iterate_succ_apply', ih (by omega),
      tick_counts_hardTimeout (s := { s with htCount := s.htCount - j }) hq expiring more]
    rfl

/-- A whole period is the TICK that ends it. -/
theorem ticks_period (timing : s.htArmed = false) (running : 1 ≤ s.rtCount) :
    tick^[s.rtCount] s = tick { s with rtCount := 1 } := by
  obtain ⟨j, hj⟩ := Nat.exists_eq_add_of_le' running
  rw [hj, Function.iterate_succ_apply', ticks_count_period hq timing (by omega), hj, Nat.add_sub_cancel_left]

/-- The whole hard timeout is the TICK at which it fires. -/
theorem ticks_hardTimeout (expiring : s.htArmed = true) (running : 1 ≤ s.htCount) :
    tick^[s.htCount] s = headLeft s q [.log (.hardTimeout e.tag), .compl ⟨e.tag, .cancelled, []⟩] := by
  obtain ⟨j, hj⟩ := Nat.exists_eq_add_of_le' running
  rw [hj, Function.iterate_succ_apply', ticks_count_hardTimeout hq expiring (by omega), hj, Nat.add_sub_cancel_left,
    tick_cancels (s := { s with htCount := 1 }) hq expiring rfl]
  exact headLeft_setTimer s s.rtCount s.retriesLeft s.htArmed 1 q _

end

/-! ### the timeline of a head without replies (R195) -/

/-- WAIT n is n TICKs (R89). -/
theorem runEvents_wait (n : Nat) (s : State) : runEvents (expand (.wait n)) s = .next (tick^[n] s) := by
  induction n generalizing s with
  | zero => rfl
  | succ n ih => exact (runEvents_cons rfl _).trans (ih (tick s))

theorem retransmissions_succ (e : Entry) (k : Nat) :
    retransmissions e (k + 1) = retransmissions e k ++ [.tx (requestBytes e), .log (.retransmit e.tag (k + 1))] := by
  simp [retransmissions, List.range_succ]

/-- The state in which a head `e` that was started in `s` has just been retransmitted for the k-th time. -/
def retransmitted (e : Entry) (k : Nat) (s : State) : State :=
  { s with
    rtCount := s.cfg.retryInterval, retriesLeft := s.cfg.retryCount - k, out := s.out ++ retransmissions e k }

/-- The state in which the hard timeout of a head `e` that was started in `s` has just been armed. -/
def retriesExhausted (e : Entry) (s : State) : State :=
  { s with
    rtCount := 0, retriesLeft := 0, htArmed := true, htCount := s.cfg.hardTimeout,
    out := s.out ++ retransmissions e s.cfg.retryCount ++ [.log (.retryExhausted e.tag)] }

/-- The period behind the k-th retransmission is the TICK that ends it. -/
theorem ticks_next_period {s : State} {e : Entry} {q : List Entry} (valid : s.cfg.valid = true) (hq : s.queue = e :: q)
    (timing : s.htArmed = false) {k : Nat} (before : tick^[k * s.cfg.retryInterval] s = retransmitted e k s) :
    tick^[(k + 1) * s.cfg.retryInterval] s = tick { retransmitted e k s with rtCount := 1 } := by
  obtain ⟨interval, -⟩ := (cfg_valid_iff _).mp valid
  rw [Nat.succ_mul, Nat.add_comm, Function.iterate_add_apply, before]
  exact ticks_period (s := retransmitted e k s) hq timing interval

section
variable {s : State} {e : Entry} {q : List Entry} (valid : s.cfg.valid = true) (hq : s.queue = e :: q)
  (timing : s.htArmed = false) (fullPeriod : s.rtCount = s.cfg.retryInterval) (allRetries : s.retriesLeft = s.cfg.retryCount)
include valid hq timing fullPeriod allRetries

theorem ticks_retransmitted {k : Nat} (within : k ≤ s.cfg.retryCount) :
    tick^[k * s.cfg.retryInterval] s = retransmitted e k s := by
  induction k with
  | zero => simp [retransmitted, retransmissions, ← fullPeriod, ← allRetries]
  | succ k ih =>
    have retries : 1 ≤ s.cfg.retryCount - k := by omega
    rw [ticks_next_period valid hq timing (ih (by omega)),
      tick_retransmits (s := { retransmitted e k s with rtCount := 1 }) hq timing rfl retries]
    simp [retransmitted, retransmissions_succ, Nat.sub_sub, Nat.sub_sub_self within]

theorem ticks_exhausted : tick^[(s.cfg.retryCount + 1) * s.cfg.retryInterval] s = retriesExhausted e s := by
  have before := ticks_retransmitted valid hq timing fullPeriod allRetries le_rfl
  rw [ticks_next_period valid hq timing before,
    tick_arms (s := { retransmitted e s.cfg.retryCount s with rtCount := 1 }) hq timing rfl (Nat.sub_self _)]
  simp [retransmitted, retriesExhausted]

/-- In the periods before exhaustion: as many retransmissions as whole periods, and the ticks of the period that runs. -/
theorem ticks_timing {n : Nat} (within : n < (s.cfg.retryCount + 1) * s.cfg.retryInterval) :
    tick^[n] s =
      { retransmitted e (n / s.cfg.retryInterval) s with rtCount := s.cfg.retryInterval - n % s.cfg.retryInterval } := by
  obtain ⟨interval, -⟩ := (cfg_valid_iff _).mp valid
  have periods : n / s.cfg.retryInterval ≤ s.cfg.retryCount :=
    Nat.lt_succ_iff.mp (Nat.div_lt_of_lt_mul (Nat.mul_comm _ _ ▸ within))
  conv_lhs => rw [← Nat.mod_add_div' n s.cfg.retryInterval, Function.iterate_add_apply,
    ticks_retransmitted valid hq timing fullPeriod allRetries periods]
  exact ticks_count_period (s := retransmitted e (n / s.cfg.retryInterval) s) hq timing (Nat.mod_lt n interval)

theorem ticks_expiring {j : Nat} (within : j < s.cfg.hardTimeout) :
    tick^[j + (s.cfg.retryCount + 1) * s.cfg.retryInterval] s =
      { retriesExhausted e s with htCount := s.cfg.hardTimeout - j } := by
  rw [Function.iterate_add_apply, ticks_exhausted valid hq timing fullPeriod allRetries]
  exact ticks_count_hardTimeout (s := retriesExhausted e s) hq rfl within

theorem ticks_cancelled :
    tick^[(s.cfg.retryCount + 1) * s.cfg.retryInterval + s.cfg.hardTimeout] s =
      headLeft (retriesExhausted e s) q [.log (.hardTimeout e.tag), .compl ⟨e.tag, .cancelled, []⟩] := by
  obtain ⟨-, length, -⟩ := (cfg_valid_iff _).mp valid
  rw [Nat.add_comm, Function.iterate_add_apply, ticks_exhausted valid hq timing fullPeriod allRetries]
  exact ticks_hardTimeout (s := retriesExhausted e s) hq rfl length

end

/-! ### reception that does not settle (R197) -/

/-- Correlate writes the timer only where it settles the head. -/
theorem correlate_sameTimer {f : Sof} {s : State}
    (unsettled : ∀ e q, s.queue = e :: q → f.func = e.func → ¬ settlesOn s.cfg e f = true) : sameTimer s (correlate f s) := by
  cases hq : s.queue with
  | nil => rw [correlate_nil hq]; exact sameTimer_refl s
  | cons e q =>
    rw [correlate_cons hq]
    split_ifs with func settles
    · exact absurd settles (unsettled e q hq func)
    · exact sameTimer_refl s
    · exact sameTimer_refl s
    · exact sameTimer_refl s

/-- A valid frame is acknowledged and correlated, and only its settling writes the timer. -/
theorem exec_presented_sameTimer {s : State} {i : Instr} {f : Sof} (hf : PresentsValidSof s.cfg i f)
    (unsettled : ∀ e q, s.queue = e :: q → f.func = e.func → ¬ settlesOn s.cfg e f = true) :
    ∃ t, exec i s = .next t ∧ sameTimer s t :=
  ⟨_, exec_presented hf, correlate_sameTimer (s := s.emit _) unsettled⟩

/-- An instruction that does not write the queue leaves its head's timer alone. -/
theorem exec_sameTimer {i : Instr} (other : ¬ writesQueue i) (s : State) : ∃ t, exec i s = .next t ∧ sameTimer s t := by
  obtain ⟨t, he, -⟩ := exec_completes i s
  exact ⟨t, he, ((exec_writesItsOwn he).queue other).2⟩

end Sys2Proof.Machine

namespace Sys2Proof.Claims

open Sys2Proof.Machine

/-- Settles O37: the TICKs are cut into whole periods, the rest of a period, and the hard timeout. -/
theorem noReplyTimeline : Obligations.NoReplyTimeline := by
  intro s e q valid hq timing fullPeriod allRetries
  refine ⟨fun n within => ?_, fun n fromArmed within => ?_, ?_⟩
  · refine ⟨_, runEvents_wait n s, ?_⟩
    rw [ticks_timing valid hq timing fullPeriod allRetries within]
    exact ⟨rfl, rfl⟩
  · obtain ⟨j, rfl⟩ := Nat.exists_eq_add_of_le' fromArmed
    refine ⟨_, runEvents_wait _ s, ?_⟩
    rw [ticks_expiring valid hq timing fullPeriod allRetries (by omega)]
    exact ⟨rfl, rfl, rfl⟩
  · refine ⟨_, runEvents_wait _ s, ?_⟩
    rw [ticks_cancelled valid hq timing fullPeriod allRetries]
    exact ⟨headLeft_queue _ q _, by simp [retriesExhausted]⟩

/-- Settles O36. -/
theorem hardTimeoutCancelsHead : Obligations.HardTimeoutCancelsHead :=
  fun _ _ _ hq expiring last => congrArg _ (tick_cancels hq expiring last)

/-- Settles O38: most of the rows write no timer, the byte only the buffer, and a valid frame the timer only where it settles. -/
theorem timerIsNotResetByReception : Obligations.TimerIsNotResetByReception := by
  rintro s i (rfl | rfl | rfl | ⟨x, rfl⟩ | ⟨b, rfl⟩ | ⟨a, b, rfl⟩ | ⟨f, rfl, invalid⟩ | ⟨b, rfl, incomplete⟩ |
    ⟨f, hf, unmatched⟩ | ⟨f, e, q, hf, hq, -, multi, kind⟩)
  iterate 6 exact exec_sameTimer id s
  · exact ⟨_, congrArg Host.Outcome.next (sofReceived_invalid invalid s), sameTimer_refl s⟩
  · exact ⟨_, congrArg Host.Outcome.next (rxByte_incomplete incomplete), sameTimer_refl s⟩
  · exact exec_presented_sameTimer hf fun e q hq func => absurd func (unmatched e q hq)
  · refine exec_presented_sameTimer hf fun e' q' hq' _ => ?_
    obtain ⟨rfl, rfl⟩ := List.cons.inj (hq.symm.trans hq')
    exact not_settlesOn multi kind

/-- Settles O33, by whether there is a head and its phase. -/
theorem tickCountsDown : Obligations.TickCountsDown := by
  refine fun s => ⟨fun idle => congrArg _ (tick_nil idle), fun busy timing more => ?_, fun busy expiring more => ?_⟩
  · obtain ⟨e, q, hq⟩ := List.exists_cons_of_ne_nil busy
    exact congrArg _ (tick_counts_period hq timing more)
  · obtain ⟨e, q, hq⟩ := List.exists_cons_of_ne_nil busy
    exact congrArg _ (tick_counts_hardTimeout hq expiring more)

/-- Settles O34. -/
theorem expiryRetransmits : Obligations.ExpiryRetransmits :=
  fun _ _ _ hq timing last retries => congrArg _ (tick_retransmits hq timing last retries)

/-- Settles O35. -/
theorem exhaustionArmsHardTimeout : Obligations.ExhaustionArmsHardTimeout :=
  fun _ _ _ hq timing last exhausted => congrArg _ (tick_arms hq timing last exhausted)

end Sys2Proof.Claims
end

section
/-! The auxiliary events of 44_auxiliary.md: NOP skips (R210), SEQ_NEXT moves the sequence counter and replies it (R211), and a run
of SEQ_NEXT replies the counter's cycle from where it stands (R212). -/

namespace Sys2Proof.Machine

/-- An event with one meaning in every state, repeated, is that meaning iterated (R59). -/
theorem runEvents_replicate {i : Instr} {f : State → State} (completes : ∀ s, exec i s = .next (f s)) (k : Nat) (s : State) :
    runEvents (List.replicate k i) s = .next (f^[k] s) := by
  induction k generalizing s with
  | zero => rfl
  | succ k ih => exact (runEvents_cons (completes s) _).trans (ih (f s))

@[simp] theorem seqNext_seq (s : State) : (seqNext s).seq = s.seq % 126 + 1 := rfl

@[simp] theorem seqNext_reply (s : State) : (seqNext s).reply = s.reply ++ [.seqValue (s.seq % 126 + 1)] := by simp [seqNext]

/-- From any counter, also one outside 0 to 126, the replies go round the cycle from the counter's value on. -/
theorem seqNext_iterate_reply (k : Nat) (s : State) :
    (seqNext^[k] s).reply = s.reply ++ (List.range k).map fun j => .seqValue ((s.seq + j) % 126 + 1) := by
  induction k generalizing s with
  | zero => simp
  | succ k ih =>
    have next (j : Nat) : (s.seq % 126 + 1 + j) % 126 = (s.seq + (j + 1)) % 126 := by omega
    rw [Function.iterate_succ_apply, ih, List.range_succ_eq_map]
    simp [Function.comp_def, next]

end Sys2Proof.Machine

namespace Sys2Proof.Claims

open Sys2Proof.Machine

/-- Settles O42: the replies of the iterated SEQ_NEXT, from a counter of 0. -/
theorem sequenceLaw : Obligations.SequenceLaw := by
  intro s k fromZero
  refine ⟨_, runEvents_replicate (fun _ => rfl) k s, ?_⟩
  simpa [fromZero] using seqNext_iterate_reply k s

/-- Settles O40. -/
theorem nopSkips : Obligations.NopSkips :=
  fun _ => ⟨rfl, rfl⟩

/-- Settles O41: both rows are `seqNext`, whose value is one more than a remainder modulo 126. -/
theorem seqNextAdvances : Obligations.SeqNextAdvances := by
  intro s i hi
  have inRange : 1 ≤ s.seq % 126 + 1 ∧ s.seq % 126 + 1 ≤ 126 := by omega
  obtain rfl | rfl : i = .evSeqNext ∨ i = .hostSeqNext := by simpa using hi
  · exact ⟨rfl, inRange⟩
  · exact ⟨rfl, inRange⟩

end Sys2Proof.Claims
end

section
/-! The rules of 60_exceptions.md on the traces and the events of a cycle: every instruction completes and the traces only grow
(R220), an element is available until the host consumes it (R225), the bytes of a completion are read back (R223), the clocked order
is a stable sort by rank (R228), and the engine holds its state while nothing can run (R238). -/

namespace Sys2Proof.Machine

open Sys2Proof.Claims

/-! ### the traces only grow (R31, R220) -/

/-- What no instruction does: write the parameters, move the host's read positions, or touch what was emitted before. -/
structure HostFrame (s t : State) : Prop where
  grows : tracesGrow s t
  cfg : t.cfg = s.cfg
  consumed : t.consumed = s.consumed

theorem QueueStep.hostFrame {s t : State} (h : QueueStep s t) : HostFrame s t := ⟨h.grows, h.cfg, h.consumed⟩

theorem tracesGrow_of_out_eq {s t : State} (h : t.out = s.out) : tracesGrow s t := ⟨[], by simp [h]⟩

theorem exec_hostFrame {i : Instr} {s t : State} (he : exec i s = .next t) : HostFrame s t := by
  cases exec_effect he with
  | emits _ new => rw [emits_eq]; exact ⟨⟨new, rfl⟩, rfl, rfl⟩
  | validSof f => exact (queueStep_sofValid f s).hostFrame
  | rxByte b =>
    obtain ⟨grows, cfg, consumed⟩ := (queueStep_processFrames (extractFrames (s.rxbuf ++ [b])).1
      (s.setRxbuf (extractFrames (s.rxbuf ++ [b])).2)).hostFrame
    exact ⟨grows, cfg, consumed⟩
  | tick => exact (queueStep_tick s).hostFrame
  | dispatch again kind func payload =>
    obtain ⟨grows, cfg, consumed, -, -⟩ := dispatch_frame again kind func payload s
    exact ⟨grows, cfg, consumed⟩
  | cancel tag => exact (queueStep_cancel tag s).hostFrame
  | seqNext => exact ⟨⟨[.reply (.seqValue (s.seq % 126 + 1))], rfl⟩, rfl, rfl⟩
  | reset => exact ⟨tracesGrow_of_out_eq rfl, rfl, rfl⟩

/-! ### what is available (R225) -/

/-- The elements of a trace only become more. -/
theorem traceLength_mono {s t : State} (h : tracesGrow s t) (tr : Trace) : traceLength tr s ≤ traceLength tr t := by
  obtain ⟨new, hout⟩ := h
  cases tr <;> simp [traceLength, State.compl, State.unsol, State.log, State.reply, hout]

theorem consumedOf_congr {s t : State} (h : t.consumed = s.consumed) (tr : Trace) : consumedOf tr t = consumedOf tr s := by
  cases tr <;> simp [consumedOf, h]

theorem consumedWithin_iff (s : State) : consumedWithin s ↔ ∀ tr, consumedOf tr s ≤ traceLength tr s := by
  constructor
  · rintro ⟨compl, unsol, log, reply⟩ tr
    cases tr <;> assumption
  · exact fun h => ⟨h .compl, h .unsol, h .log, h .reply⟩

theorem available_iff (tr : Trace) (s : State) : available tr s = true ↔ consumedOf tr s < traceLength tr s := by
  simp [available]

theorem consume_unavailable {tr : Trace} {s : State} (h : available tr s ≠ true) : s.consume tr = s := if_neg h

@[simp] theorem consume_out (tr : Trace) (s : State) : (s.consume tr).out = s.out := by
  unfold State.consume
  split
  · cases tr <;> rfl
  · rfl

@[simp] theorem traceLength_consume (tr' tr : Trace) (s : State) : traceLength tr' (s.consume tr) = traceLength tr' s := by
  cases tr' <;> simp [traceLength, State.compl, State.unsol, State.log, State.reply]

theorem consumedOf_consume_same {tr : Trace} {s : State} (h : available tr s = true) :
    consumedOf tr (s.consume tr) = consumedOf tr s + 1 := by
  unfold State.consume
  rw [if_pos h]
  cases tr <;> rfl

theorem consumedOf_consume_other {tr tr' : Trace} (h : tr' ≠ tr) (s : State) :
    consumedOf tr' (s.consume tr) = consumedOf tr' s := by
  unfold State.consume
  split
  · cases tr <;> cases tr' <;> simp [consumedOf] at h ⊢
  · rfl

theorem consumedWithin_consume {s : State} (h : consumedWithin s) (tr : Trace) : consumedWithin (s.consume tr) := by
  rw [consumedWithin_iff] at h ⊢
  intro tr'
  rw [traceLength_consume]
  by_cases pending : available tr s = true
  · by_cases same : tr' = tr
    · subst same
      rw [consumedOf_consume_same pending]
      exact (available_iff _ _).mp pending
    · rw [consumedOf_consume_other same]
      exact h tr'
  · rw [consume_unavailable pending]
    exact h tr'

/-- After j acts of consuming, j more elements are consumed, or all there are. -/
theorem consumedOf_iterate_consume (tr : Trace) (s : State) (j : Nat) :
    traceLength tr ((fun x => x.consume tr)^[j] s) = traceLength tr s ∧
      min (consumedOf tr s + j) (traceLength tr s) ≤ consumedOf tr ((fun x => x.consume tr)^[j] s) := by
  induction j with
  | zero => exact ⟨rfl, Nat.min_le_left _ _⟩
  | succ j ih =>
    rw [Function.iterate_succ_apply']
    generalize (fun x => x.consume tr)^[j] s = r at ih ⊢
    obtain ⟨length, consumed⟩ := ih
    refine ⟨(traceLength_consume tr tr r).trans length, ?_⟩
    by_cases pending : available tr r = true
    · rw [consumedOf_consume_same pending]
      omega
    · rw [consume_unavailable pending]
      rw [available_iff] at pending
      omega

/-! ### the frames of a completion (R223) -/

theorem encodedBytes_of_valid {f : Sof} (short : f.payload.length ≤ payloadMax) (hv : validateChecksum (.sof f) = true) :
    encodedBytes (encodeFrame (.sof f)) = sofBytes f := by
  rw [encodeFrame_sof short, ← eq_sofOf_of_valid hv]
  rfl

/-- EXTRACT takes the bytes of an SOF frame off the front of a buffer (R107). -/
theorem extractFrames_sofBytes {f : Sof} (short : f.payload.length ≤ payloadMax) (r : List Byte) :
    extractFrames (sofBytes f ++ r) = (.sof f :: (extractFrames r).1, (extractFrames r).2) := by
  rw [extractFrames_some (decodeFrame_sofBytes f r short), ← sofBytes_length, List.drop_left]

theorem extractFrames_encoded {frames : List Sof}
    (h : ∀ f ∈ frames, f.payload.length ≤ payloadMax ∧ validateChecksum (.sof f) = true) :
    extractFrames (frames.flatMap fun f => encodedBytes (encodeFrame (.sof f))) = (frames.map .sof, []) := by
  induction frames with
  | nil => exact extractFrames_none decodeFrame_nil
  | cons f frames ih =>
    obtain ⟨⟨short, valid⟩, rest⟩ := List.forall_mem_cons.mp h
    rw [List.flatMap_cons, encodedBytes_of_valid short valid, extractFrames_sofBytes short, ih rest, List.map_cons]

/-! ### the clocked order (R228) -/

theorem clockedOrder_append_singleton (is : List Instr) (i : Instr) :
    clockedOrder (is ++ [i]) = clockInsert i (clockedOrder is) := List.foldl_concat _ _ _ _

theorem clockInsert_perm (i : Instr) (l : List Instr) : (clockInsert i l).Perm (i :: l) := by
  induction l with
  | nil => exact .refl _
  | cons x l ih =>
    rw [clockInsert]
    split
    · exact .refl _
    · exact (ih.cons x).trans (.swap i x l)

theorem clockInsert_sorted (i : Instr) {l : List Instr} (h : l.Pairwise fun a b => clockRank a ≤ clockRank b) :
    (clockInsert i l).Pairwise fun a b => clockRank a ≤ clockRank b := by
  induction l with
  | nil => exact List.pairwise_singleton _ _
  | cons x l ih =>
    obtain ⟨least, sorted⟩ := List.pairwise_cons.mp h
    rw [clockInsert]
    split
    · rename_i before
      exact List.pairwise_cons.mpr
        ⟨List.forall_mem_cons.mpr ⟨before.le, fun y hy => before.le.trans (least y hy)⟩, h⟩
    · rename_i behind
      refine List.pairwise_cons.mpr ⟨fun y hy => ?_, ih sorted⟩
      obtain rfl | old := List.mem_cons.mp ((clockInsert_perm i l).mem_iff.mp hy)
      · exact Nat.not_lt.mp behind
      · exact least y old

/-- In a sorted list the inserted event stands behind all of its rank. -/
theorem clockInsert_filter (i : Instr) (r : Nat) {l : List Instr} (h : l.Pairwise fun a b => clockRank a ≤ clockRank b) :
    (clockInsert i l).filter (fun j => clockRank j == r) = (l ++ [i]).filter (fun j => clockRank j == r) := by
  induction l with
  | nil => rfl
  | cons x l ih =>
    obtain ⟨least, sorted⟩ := List.pairwise_cons.mp h
    rw [clockInsert]
    split
    · rename_i before
      by_cases rank : clockRank i = r
      · have none_left : (x :: l).filter (fun j => clockRank j == r) = [] := by
          have above : ∀ y ∈ x :: l, r < clockRank y :=
            List.forall_mem_cons.mpr ⟨rank ▸ before, fun y hy => rank ▸ before.trans_le (least y hy)⟩
          exact List.filter_eq_nil_iff.mpr fun y hy => by simpa using (above y hy).ne'
        rw [List.filter_append, List.filter_cons, none_left, List.nil_append, List.filter_cons]
        rfl
      · simp [List.filter_cons, rank]
    · rw [List.filter_cons, ih sorted, List.cons_append, List.filter_cons]

theorem clockedOrder_sorts (is : List Instr) :
    (clockedOrder is).Perm is ∧ (clockedOrder is).Pairwise (fun a b => clockRank a ≤ clockRank b) ∧
      ∀ r, (clockedOrder is).filter (fun i => clockRank i == r) = is.filter (fun i => clockRank i == r) := by
  induction is using List.reverseRecOn with
  | nil => exact ⟨.refl _, .nil, fun _ => rfl⟩
  | append_singleton is i ih =>
    obtain ⟨perm, sorted, filters⟩ := ih
    rw [clockedOrder_append_singleton]
    refine ⟨?_, clockInsert_sorted i sorted, fun r => ?_⟩
    · exact (clockInsert_perm i _).trans ((perm.cons i).trans (List.perm_append_singleton i is).symm)
    · rw [clockInsert_filter i r sorted, List.filter_append, filters r, ← List.filter_append]

/-! ### nothing to run (R238) -/

theorem step_of_nothing {s : State} (hc : s.cfg.valid = true) (h : fetch s = .nothing) : step s = .next s := by
  simp [step, stepOf, hc, h]

/-- With a full queue the look finds nothing in an input of DISPATCHes alone, if it finds nothing behind it. -/
theorem fetchFrom_onlyDispatches {s : State} {p : Port} {bs : List Byte} (full : s.cfg.queueDepth ≤ s.queue.length)
    (h : OnlyDispatches s.cfg p bs) {later : List Input}
    (behind : ∀ passed, fetchFrom s (fetchFuel later) passed later = .nothing) (passed : List Input) :
    fetchFrom s (fetchFuel (⟨p, bs⟩ :: later)) passed (⟨p, bs⟩ :: later) = .nothing := by
  induction h generalizing passed with
  | one bs i hd dispatch =>
    rw [fetchFrom_held passed later hd (hasStep_dispatch_full full dispatch)]
    exact behind _
  | more bs rest i hd dispatch _ ih =>
    rw [fetchFrom_held passed later hd (hasStep_dispatch_full full dispatch)]
    by_cases none_left : rest = []
    · rw [leftover, if_pos none_left]
      exact behind _
    · rw [leftover, if_neg none_left]
      exact ih _

theorem fetchFrom_allDispatches {s : State} {l : List Input} (full : s.cfg.queueDepth ≤ s.queue.length)
    (h : ∀ x ∈ l, OnlyDispatches s.cfg x.port x.bytes) (passed : List Input) :
    fetchFrom s (fetchFuel l) passed l = .nothing := by
  induction l generalizing passed with
  | nil => rfl
  | cons x l ih =>
    obtain ⟨hx, hl⟩ := List.forall_mem_cons.mp h
    exact fetchFrom_onlyDispatches full hx (ih hl) passed

end Sys2Proof.Machine

namespace Sys2Proof.Claims

open Sys2Proof.Machine

/-- Settles O45. -/
theorem everyInstructionCompletes : Obligations.EveryInstructionCompletes := by
  intro i s
  obtain ⟨t, he, -⟩ := exec_completes i s
  obtain ⟨grows, cfg, consumed⟩ := exec_hostFrame he
  exact ⟨t, he, grows, cfg, consumed⟩

/-- Settles O49: an instruction moves no read position and the traces only grow; consuming moves one position up to the end of its
trace. -/
theorem availableUntilConsumed : Obligations.AvailableUntilConsumed := by
  refine ⟨fun i s t tr within he longer => ?_, fun i s t tr he pending => ?_, fun s tr tr' other => ?_,
    fun s tr pending => ⟨consumedOf_consume_same pending, traceLength_consume tr tr s⟩, fun i s t within he => ?_,
    fun s tr within => consumedWithin_consume within tr, fun s tr _ => ?_⟩
  · rw [available_iff, consumedOf_congr (exec_hostFrame he).consumed]
    exact ((consumedWithin_iff s).mp within tr).trans_lt longer
  · rw [available_iff] at pending ⊢
    rw [consumedOf_congr (exec_hostFrame he).consumed]
    exact pending.trans_le (traceLength_mono (exec_hostFrame he).grows tr)
  · rw [available, available, consumedOf_consume_other other, traceLength_consume]
  · rw [consumedWithin_iff] at within ⊢
    intro tr
    rw [consumedOf_congr (exec_hostFrame he).consumed]
    exact (within tr).trans (traceLength_mono (exec_hostFrame he).grows tr)
  · obtain ⟨length, consumed⟩ := consumedOf_iterate_consume tr s (traceLength tr s)
    rw [Bool.eq_false_iff, ne_eq, available_iff]
    omega

/-- Settles O50: each frame's bytes decode to it alone, so EXTRACT takes them off one after the other. -/
theorem completionBytesReadBack : Obligations.CompletionBytesReadBack :=
  ⟨fun _ _ => ⟨rfl, rfl⟩, fun _ h => extractFrames_encoded h⟩

/-- Settles O51: inserting keeps the order sorted and puts an event behind those of its rank. -/
theorem clockedOrderSortsTheCycle : Obligations.ClockedOrderSortsTheCycle := by
  refine ⟨⟨rfl, fun _ => rfl, ?_, ?_, rfl, by decide, by decide⟩, fun i unranked => ?_, clockedOrder_sorts⟩
  · simp [cancelRows, clockRank]
  · simp [dispatchRows, clockRank]
  · cases i <;> simp [clockRank, encode] at unranked ⊢

/-- Settles O54: the look finds nothing to run, past however many DISPATCHes an input holds. -/
theorem stepHoldsWhenNothingCanRun : Obligations.StepHoldsWhenNothingCanRun := by
  refine fun s hc => ⟨fun idle => step_of_nothing hc ?_, fun full held => step_of_nothing hc ?_⟩
  · rw [fetch, idle]
    rfl
  · exact fetchFrom_allDispatches full held []

end Sys2Proof.Claims
end

section
/-! Bounded completion (60_exceptions.md R235): an entry is due within as many TICKs as its head has left to run and its position
counts whole heads (R195). No instruction but RESET puts that off, a TICK brings it one nearer, and as a head leaves the next one
starts with a whole head's time (R170, R171), so a run with that many TICKs holds the entry's completion. -/

namespace Sys2Proof.Machine

open Sys2Proof.Claims

/-! ### when an entry is due -/

/-- The TICKs after which the head completes if nothing else completes it (R190 to R194). -/
def headDue (s : State) : Nat :=
  if s.htArmed then s.htCount else s.retriesLeft * s.cfg.retryInterval + s.rtCount + s.cfg.hardTimeout

/-- A request with this tag is queued, and its position and the head's timer let it wait for at most `n` TICKs. -/
def DueWithin (tag : Byte) (n : Nat) (s : State) : Prop :=
  ∃ k, (tagsInUse s.queue)[k]? = some tag ∧ k * completionBound s.cfg + headDue s ≤ n

/-- Between `s` and `t` a completion with this tag is emitted. -/
def CompletedBetween (tag : Byte) (s t : State) : Prop := ∃ c ∈ t.compl.drop s.compl.length, c.tag = tag

theorem headDue_congr {s t : State} (hc : t.cfg = s.cfg) (h : sameTimer s t) : headDue t = headDue s := by
  obtain ⟨rt, retries, armed, ht⟩ := h
  simp only [headDue, hc, rt, retries, armed, ht]

/-- A head that leaves gives the next one a whole head's time (R171, R195). -/
theorem headDue_headLeft (s : State) (e : Entry) (q : List Entry) (pre : List Emission) :
    headDue (headLeft s (e :: q) pre) = completionBound s.cfg := by
  simp [headDue, headLeft, completionBound, Nat.succ_mul]

/-- A good head has at least one TICK left and no more than T (R34 I4, I5). -/
theorem headDue_bounds {s : State} (h : GoodState s) (busy : s.queue ≠ []) :
    1 ≤ headDue s ∧ headDue s ≤ completionBound s.cfg := by
  cases armed : s.htArmed with
  | true =>
    obtain ⟨-, -, running, within⟩ := h.expiringTimer (by simp [phase, Machine.busy, busy, armed])
    simp only [headDue, armed, if_true, completionBound]
    omega
  | false =>
    obtain ⟨running, within, -⟩ := h.timingTimer (by simp [phase, Machine.busy, busy, armed])
    have periods := Nat.mul_le_mul_right s.cfg.retryInterval h.retriesInRange
    simp only [headDue, armed, Bool.false_eq_true, if_false, completionBound, Nat.succ_mul]
    omega

theorem dueWithin_of_getElem? {s : State} {k : Nat} {e : Entry} (h : GoodState s) (he : s.queue[k]? = some e) :
    DueWithin e.tag ((k + 1) * completionBound s.cfg) s := by
  have busy : s.queue ≠ [] := by intro idle; simp [idle] at he
  refine ⟨k, by simp [tagsInUse, he], ?_⟩
  rw [Nat.succ_mul]
  exact Nat.add_le_add_left (headDue_bounds h busy).2 _

theorem DueWithin.mono {tag : Byte} {m n : Nat} {s : State} (h : DueWithin tag m s) (le : m ≤ n) : DueWithin tag n s := by
  obtain ⟨k, hk, due⟩ := h
  exact ⟨k, hk, due.trans le⟩

theorem DueWithin.headDue_le {tag : Byte} {n : Nat} {s : State} (h : DueWithin tag n s) : headDue s ≤ n := by
  obtain ⟨k, -, due⟩ := h
  exact (Nat.le_add_left _ _).trans due

theorem DueWithin.busy {tag : Byte} {n : Nat} {s : State} (h : DueWithin tag n s) : s.queue ≠ [] := by
  intro idle
  obtain ⟨k, hk, -⟩ := h
  simp [idle, tagsInUse] at hk

/-- In a good state an entry waits for at least one more TICK. -/
theorem DueWithin.pos {tag : Byte} {n : Nat} {s : State} (h : DueWithin tag n s) (good : GoodState s) : 1 ≤ n :=
  (headDue_bounds good h.busy).1.trans h.headDue_le

/-- Only the tags and what the head has left to run count. -/
theorem DueWithin.transfer {tag : Byte} {m n : Nat} {s t : State} (h : DueWithin tag n s) (hc : t.cfg = s.cfg)
    (tags : tagsInUse s.queue <+: tagsInUse t.queue) (due : headDue t + n ≤ headDue s + m) : DueWithin tag m t := by
  obtain ⟨k, hk, hn⟩ := h
  obtain ⟨new, hnew⟩ := tags
  obtain ⟨hlt, -⟩ := List.getElem?_eq_some_iff.mp hk
  refine ⟨k, by rw [← hnew, List.getElem?_append_left hlt, hk], ?_⟩
  rw [hc]
  omega

/-! ### completions stay -/

theorem completedBetween_of_compl {tag : Byte} {s t : State} {new : List Completion} {c : Completion}
    (h : t.compl = s.compl ++ new) (hc : c ∈ new) (htag : c.tag = tag) : CompletedBetween tag s t :=
  ⟨c, by rwa [h, List.drop_left], htag⟩

theorem CompletedBetween.before {tag : Byte} {s r t : State} (h : CompletedBetween tag r t) (g : tracesGrow s r) :
    CompletedBetween tag s t := by
  obtain ⟨c, hc, htag⟩ := h
  exact ⟨c, (List.drop_sublist_drop_left _ (compl_prefix g).length_le).subset hc, htag⟩

theorem CompletedBetween.later {tag : Byte} {s r t : State} (h : CompletedBetween tag s r) (g : tracesGrow r t) :
    CompletedBetween tag s t := by
  obtain ⟨c, hc, htag⟩ := h
  exact ⟨c, ((compl_prefix g).drop _).subset hc, htag⟩

/-! ### what the operations do to an entry that is due -/

/-- From `s` to `t` the traces grow, and an entry that is due is completed or is due no later. -/
structure KeepsDue (s t : State) : Prop where
  grows : tracesGrow s t
  due : ∀ tag n, DueWithin tag n s → CompletedBetween tag s t ∨ DueWithin tag n t

theorem KeepsDue.trans {a b c : State} (h : KeepsDue a b) (g : KeepsDue b c) : KeepsDue a c := by
  refine ⟨tracesGrow_trans h.grows g.grows, fun tag n hn => ?_⟩
  obtain completed | due := h.due tag n hn
  · exact .inl (completed.later g.grows)
  · exact (g.due tag n due).imp_left fun completed => completed.before h.grows

theorem keepsDue_of_sameTimer {s t : State} (grows : tracesGrow s t) (hc : t.cfg = s.cfg)
    (tags : tagsInUse s.queue <+: tagsInUse t.queue) (timer : s.queue ≠ [] → sameTimer s t) : KeepsDue s t :=
  ⟨grows, fun _ _ h => .inr (h.transfer hc tags (by rw [headDue_congr hc (timer h.busy)]))⟩

theorem KeepsDue.refl (s : State) : KeepsDue s s :=
  keepsDue_of_sameTimer (tracesGrow_refl s) rfl List.prefix_rfl fun _ => sameTimer_refl s

theorem keepsDue_emit (s : State) (x : Emission) : KeepsDue s (s.emit x) :=
  keepsDue_of_sameTimer (queueStep_emit s x).grows rfl List.prefix_rfl fun _ => sameTimer_refl s

theorem keepsDue_emits (new : List Emission) (s : State) : KeepsDue s (new.foldl State.emit s) := by
  induction new generalizing s with
  | nil => exact .refl s
  | cons x new ih => exact (keepsDue_emit s x).trans (ih _)

theorem keepsDue_setRxbuf (s : State) (b : List Byte) : KeepsDue s (s.setRxbuf b) :=
  keepsDue_of_sameTimer (tracesGrow_of_out_eq rfl) rfl List.prefix_rfl fun _ => sameTimer_refl s

theorem keepsDue_seqNext (s : State) : KeepsDue s (seqNext s) :=
  keepsDue_of_sameTimer (exec_hostFrame (i := .evSeqNext) rfl).grows rfl List.prefix_rfl fun _ => sameTimer_refl s

theorem keepsDue_retain {s : State} {e : Entry} {q : List Entry} (hq : s.queue = e :: q) (resp : List Sof) :
    KeepsDue s (s.setQueue ({ e with resp := resp } :: q)) :=
  keepsDue_of_sameTimer (tracesGrow_of_out_eq rfl) rfl ((unmoved_retain hq resp).tags ▸ List.prefix_rfl)
    fun _ => sameTimer_refl s

/-- As the head leaves, it completes, and every other entry no longer waits for what it had left to run. -/
theorem due_headLeft {s : State} {e : Entry} {q : List Entry} (hq : s.queue = e :: q) {pre : List Emission}
    (completes : (pre.flatMap complOf).map (·.tag) = [e.tag]) {tag : Byte} {m n : Nat} (h : DueWithin tag n s)
    (enough : n ≤ headDue s + m) : CompletedBetween tag s (headLeft s q pre) ∨ DueWithin tag m (headLeft s q pre) := by
  obtain ⟨k, hk, due⟩ := h
  cases k with
  | zero =>
    obtain rfl : e.tag = tag := by simpa [tagsInUse, hq] using hk
    obtain ⟨c, hc, htag⟩ := List.mem_map.mp (completes ▸ List.mem_singleton_self e.tag)
    exact .inl (completedBetween_of_compl (headLeft_compl s q pre) hc htag)
  | succ k =>
    cases q with
    | nil => simp [tagsInUse, hq] at hk
    | cons next q =>
      refine .inr ⟨k, by simpa [tagsInUse, hq] using hk, ?_⟩
      have cfg : (headLeft s (next :: q) pre).cfg = s.cfg := rfl
      rw [Nat.succ_mul] at due
      rw [headDue_headLeft, cfg]
      omega

theorem keepsDue_settle (st : Status) (s : State) : KeepsDue s (settle st s) := by
  refine ⟨(queueStep_settle st s).grows, fun tag n h => ?_⟩
  obtain ⟨e, q, hq⟩ := List.exists_cons_of_ne_nil h.busy
  rw [settle_eq_headLeft hq]
  exact due_headLeft hq rfl h (Nat.le_add_left _ _)

theorem keepsDue_correlate (f : Sof) (s : State) : KeepsDue s (correlate f s) := by
  cases hq : s.queue with
  | nil => rw [correlate_nil hq]; exact keepsDue_emit _ _
  | cons e q =>
    rw [correlate_cons hq]
    split_ifs
    · exact (keepsDue_retain hq _).trans (keepsDue_settle _ _)
    · exact keepsDue_retain hq _
    · exact keepsDue_emit _ _
    · exact keepsDue_emit _ _

theorem keepsDue_sofValid (f : Sof) (s : State) : KeepsDue s (sofValid f s) :=
  (keepsDue_emit _ _).trans (keepsDue_correlate _ _)

theorem keepsDue_processFrame (s : State) (f : Frame) : KeepsDue s (processFrame s f) := by
  cases f with
  | sof f =>
    cases hv : validateChecksum (.sof f) with
    | true => rw [processFrame, sofReceived_valid hv]; exact keepsDue_sofValid f s
    | false => rw [processFrame, sofReceived_invalid hv]; exact (keepsDue_emit _ _).trans (keepsDue_emit _ _)
  | malformed => exact (keepsDue_emit _ _).trans (keepsDue_emit _ _)
  | ack => exact .refl s
  | nak | can | unknown => exact keepsDue_emit _ _

theorem keepsDue_processFrames (fs : List Frame) (s : State) : KeepsDue s (fs.foldl processFrame s) := by
  induction fs generalizing s with
  | nil => exact .refl s
  | cons f fs ih => exact (keepsDue_processFrame s f).trans (ih _)

theorem keepsDue_rxByte (b : Byte) (s : State) : KeepsDue s (rxByte b s) :=
  (keepsDue_setRxbuf s _).trans (keepsDue_processFrames _ _)

/-- What stands behind a place that is given up moves one forward, and nothing else moves. -/
theorem getElem?_of_removed {α : Type} {l m : List α} {x y : α} {k : Nat} (h : (l ++ x :: m)[k]? = some y) :
    y = x ∨ ∃ j ≤ k, (l ++ m)[j]? = some y := by
  obtain before | rfl | behind := Nat.lt_trichotomy k l.length
  · rw [List.getElem?_append_left before] at h
    exact .inr ⟨k, le_rfl, by rw [List.getElem?_append_left before, h]⟩
  · exact .inl (by simpa using h.symm)
  · obtain ⟨j, rfl⟩ : ∃ j, k = l.length + (j + 1) := Nat.exists_eq_add_of_lt behind
    rw [List.getElem?_append_right behind.le, Nat.add_sub_cancel_left, List.getElem?_cons_succ] at h
    refine .inr ⟨l.length + j, by omega, ?_⟩
    rwa [List.getElem?_append_right (Nat.le_add_right _ _), Nat.add_sub_cancel_left]

/-- An entry cancelled behind the head completes, and those behind it move forward (R175). -/
theorem keepsDue_cancel_behind {s : State} {h e : Entry} {q1 q2 : List Entry} (hq : s.queue = h :: (q1 ++ e :: q2))
    (hh : h.tag ≠ e.tag) (h1 : ∀ x ∈ q1, x.tag ≠ e.tag) : KeepsDue s (cancel e.tag s) := by
  refine ⟨(queueStep_cancel e.tag s).grows, fun tag n due => ?_⟩
  rw [cancel_behind hq hh h1]
  obtain ⟨k, hk, hn⟩ := due
  have place : (tagsInUse (h :: q1) ++ e.tag :: tagsInUse q2)[k]? = some tag := by simpa [tagsInUse, hq] using hk
  obtain rfl | ⟨j, hj, hplace⟩ := getElem?_of_removed place
  · exact .inl (completedBetween_of_compl (new := [⟨e.tag, .cancelled, []⟩]) (by simp [State.compl, complOf])
      (List.mem_singleton_self _) rfl)
  · have forward := Nat.mul_le_mul_right (completionBound s.cfg) hj
    exact .inr ⟨j, by simpa [tagsInUse] using hplace, (Nat.add_le_add_right forward _).trans hn⟩

theorem keepsDue_cancel (tag : Byte) (s : State) : KeepsDue s (cancel tag s) := by
  obtain unknown | ⟨q1, e, q2, hq, rfl, before⟩ := tag_unknown_or_first tag s.queue
  · rw [cancel_unknown unknown]
    exact keepsDue_emit s _
  · cases q1 with
    | nil =>
      refine ⟨(queueStep_cancel e.tag s).grows, fun _ _ due => ?_⟩
      rw [cancel_head hq]
      exact due_headLeft hq rfl due (Nat.le_add_left _ _)
    | cons h q1 =>
      obtain ⟨hh, h1⟩ := List.forall_mem_cons.mp before
      exact keepsDue_cancel_behind hq hh h1

section
variable (again : Input) (kind func : Byte) (payload : List Byte) (s : State)

/-- DISPATCH queues at the end (R161). -/
theorem tagsInUse_dispatch : tagsInUse s.queue <+: tagsInUse (dispatch again kind func payload s).queue := by
  by_cases room : s.queue.length < s.cfg.queueDepth
  · by_cases short : payload.length ≤ payloadMax
    · have last : tagsInUse s.queue <+: tagsInUse (queued kind func payload s).queue := by simp [queued, tagsInUse]
      rw [dispatch_accepted room short]
      split_ifs
      · rwa [startHead_queue]
      · exact last
    · rw [dispatch_tooLong room (Nat.not_le.mp short)]
  · rw [dispatch_held (Nat.not_lt.mp room), setOffered_queue]

theorem keepsDue_dispatch : KeepsDue s (dispatch again kind func payload s) := by
  obtain ⟨grows, cfg, -, -, -⟩ := dispatch_frame again kind func payload s
  exact keepsDue_of_sameTimer grows cfg (tagsInUse_dispatch again kind func payload s) dispatch_sameTimer

end

/-- No instruction but TICK and RESET touches what an entry has to wait for, unless it completes the entry or one in front of it. -/
theorem exec_keepsDue {i : Instr} {s t : State} (noTick : i ≠ .evTick) (noReset : i ≠ .evReset) (he : exec i s = .next t) :
    KeepsDue s t := by
  cases exec_effect he with
  | emits _ new => exact keepsDue_emits new s
  | validSof f => exact keepsDue_sofValid f s
  | rxByte b => exact keepsDue_rxByte b s
  | tick => exact absurd rfl noTick
  | dispatch again kind func payload => exact keepsDue_dispatch again kind func payload s
  | cancel tag => exact keepsDue_cancel tag s
  | seqNext => exact keepsDue_seqNext s
  | reset => exact absurd rfl noReset

/-! ### a TICK brings every entry one nearer -/

/-- A TICK takes one from what the head has left to run, or is its last and cancels it (R190 to R194). -/
theorem tick_headDue {s : State} {e : Entry} {q : List Entry} (h : GoodState s) (hq : s.queue = e :: q) :
    (headDue s = headDue (tick s) + 1 ∧ (tick s).queue = s.queue) ∨
      (headDue s = 1 ∧ tick s = headLeft s q [.log (.hardTimeout e.tag), .compl ⟨e.tag, .cancelled, []⟩]) := by
  cases armed : s.htArmed with
  | true =>
    obtain ⟨-, -, running, -⟩ := h.expiringTimer (by simp [phase, busy, hq, armed])
    obtain last | more := running.eq_or_lt'
    · exact .inr ⟨by simp [headDue, armed, last], tick_cancels hq armed last⟩
    · rw [tick_counts_hardTimeout hq armed more]
      refine .inl ⟨?_, rfl⟩
      simp only [headDue, armed, if_true]
      omega
  | false =>
    obtain ⟨running, -, -⟩ := h.timingTimer (by simp [phase, busy, hq, armed])
    left
    obtain last | more := running.eq_or_lt'
    · by_cases exhausted : s.retriesLeft = 0
      · rw [tick_arms hq armed last exhausted]
        simp [headDue, armed, last, exhausted, Nat.add_comm]
      · obtain ⟨remaining, hretries⟩ := Nat.exists_eq_add_one_of_ne_zero exhausted
        rw [tick_retransmits hq armed last (by omega)]
        refine ⟨?_, rfl⟩
        simp only [headDue, armed, last, hretries, Nat.succ_mul, Nat.add_sub_cancel, Bool.false_eq_true, if_false]
        omega
    · rw [tick_counts_period hq armed more]
      refine ⟨?_, rfl⟩
      simp only [headDue, armed, Bool.false_eq_true, if_false]
      omega

theorem due_tick {tag : Byte} {n : Nat} {s : State} (good : GoodState s) (h : DueWithin tag (n + 1) s) :
    CompletedBetween tag s (tick s) ∨ DueWithin tag n (tick s) := by
  obtain ⟨e, q, hq⟩ := List.exists_cons_of_ne_nil h.busy
  obtain ⟨due, queue⟩ | ⟨last, leaves⟩ := tick_headDue good hq
  · exact .inr (h.transfer (queueStep_tick s).cfg (queue ▸ List.prefix_rfl) (by omega))
  · rw [leaves]
    exact due_headLeft hq rfl h (by omega)

/-! ### runs -/

/-- Over one instruction: as many TICKs nearer as it is. -/
theorem exec_due {i : Instr} {s t : State} {tag : Byte} {n : Nat} (good : GoodState s) (noReset : i ≠ .evReset)
    (he : exec i s = .next t) (h : DueWithin tag (n + [i].count .evTick) s) :
    CompletedBetween tag s t ∨ DueWithin tag n t := by
  by_cases isTick : i = .evTick
  · subst isTick
    cases he
    exact due_tick good h
  · have noTick : [i].count .evTick = 0 := by simp [isTick]
    rw [noTick, Nat.add_zero] at h
    exact (exec_keepsDue isTick noReset he).due tag n h

theorem runEvents_grows {is : List Instr} {s t : State} (h : runEvents is s = .next t) : tracesGrow s t := by
  induction is generalizing s with
  | nil => cases h; exact tracesGrow_refl _
  | cons i is ih =>
    obtain ⟨r, he, -⟩ := exec_completes i s
    rw [runEvents_cons he] at h
    exact tracesGrow_trans (exec_hostFrame he).grows (ih h)

/-- A run with as many TICKs as an entry is due within holds its completion. -/
theorem runEvents_completes {tag : Byte} {is : List Instr} {s t : State} {n : Nat} (good : GoodState s)
    (due : DueWithin tag n s) (noReset : .evReset ∉ is) (run : runEvents is s = .next t) (ticks : n ≤ is.count .evTick) :
    CompletedBetween tag s t := by
  induction is generalizing s n with
  | nil => exact absurd (due.pos good) (by simpa using ticks)
  | cons i is ih =>
    obtain ⟨hi, his⟩ := not_or.mp (mt List.mem_cons.mpr noReset)
    obtain ⟨r, he, -⟩ := exec_completes i s
    rw [runEvents_cons he] at run
    rw [← List.singleton_append, List.count_append] at ticks
    obtain completed | rest := exec_due (n := n - [i].count .evTick) good (Ne.symm hi) he (due.mono (by omega))
    · exact completed.later (runEvents_grows run)
    · exact (ih (good_exec good he) rest his run (by omega)).before (exec_hostFrame he).grows

end Sys2Proof.Machine

namespace Sys2Proof.Claims

open Sys2Proof.Machine

/-- Settles O39: a good entry at position k is due within (k + 1) T TICKs. -/
theorem boundedCompletion : Obligations.BoundedCompletion := by
  intro is s t k e good he noReset run ticks
  exact runEvents_completes good (dueWithin_of_getElem? good he) noReset run ticks

end Sys2Proof.Claims
end

section
/-! Where step stops (60_exceptions.md R220, 70_reset_and_hazards.md R252; log 16, log 22). The look at the offered inputs drops only
what stands in front at a port and joins only what follows there, so the bytes it rejects stand together in what is offered at their
port. After it, the reset table (R250, R251). -/

namespace Sys2Proof.Machine

open Sys2Proof.Claims

/-! ### what is offered at a port, as the look goes on -/

@[simp] theorem streamAt_cons (p : Port) (x : Input) (l : List Input) :
    streamAt p (x :: l) = (if x.port = p then x.bytes else []) ++ streamAt p l := by
  by_cases h : x.port = p <;> simp [streamAt, h]

@[simp] theorem streamAt_leftover_append (p q : Port) (rest : List Byte) (l : List Input) :
    streamAt p (leftover q rest ++ l) = (if q = p then rest else []) ++ streamAt p l := by
  by_cases h : rest = [] <;> simp [leftover, h]

/-- An input that is passed is taken from the front of its port's bytes. -/
theorem streamAt_suffix_cons (p : Port) (x : Input) (l : List Input) : streamAt p l <:+ streamAt p (x :: l) :=
  ⟨_, (streamAt_cons p x l).symm⟩

/-- A held DISPATCH is taken from the front of its port's bytes, and what stands behind it stays. -/
theorem streamAt_suffix_held {s : State} {inp : Input} {i : Instr} {rest : List Byte}
    (hd : decode s.cfg inp.port inp.bytes = .instr i rest) (hs : hasStep s i = false) (p : Port) (later : List Input) :
    streamAt p (leftover inp.port rest ++ later) <:+ streamAt p (inp :: later) := by
  obtain ⟨-, a, bytes_eq, -⟩ := decode_held hd hs
  by_cases h : inp.port = p
  · exact ⟨a, by simp [h, bytes_eq]⟩
  · exact ⟨[], by simp [h]⟩

/-- Joining an incomplete command with the next input at its port moves no byte within a port. -/
theorem streamAt_joinNext {inp : Input} {l l' : List Input} (h : joinNext inp l = some l') (p : Port) :
    streamAt p l' = streamAt p (inp :: l) := by
  induction l generalizing l' with
  | nil => simp [joinNext] at h
  | cons x l ih =>
    by_cases same : x.port = inp.port
    · obtain rfl : ⟨x.port, inp.bytes ++ x.bytes⟩ :: l = l' := by simpa [joinNext, same] using h
      by_cases at_p : inp.port = p <;> simp [same, at_p]
    · obtain ⟨m, joined, rfl⟩ : ∃ m, joinNext inp l = some m ∧ x :: m = l' := by simpa [joinNext, same] using h
      rw [streamAt_cons, ih joined]
      by_cases at_p : inp.port = p
      · subst at_p
        simp [same]
      · simp [at_p]

/-! ### what the look rejects -/

/-- The look rejects only bytes that stand together at one port and decode to no instruction. -/
theorem fetchFrom_bad {s : State} {fuel : Nat} {passed l : List Input} {e : DecodeError}
    (h : fetchFrom s fuel passed l = .bad e) :
    ∃ (p : Port) (bs : List Byte), bs <:+: streamAt p l ∧ decode s.cfg p bs = .invalid e := by
  induction fuel generalizing passed l with
  | zero => simp [fetchFrom] at h
  | succ fuel ih =>
    cases l with
    | nil => simp [fetchFrom] at h
    | cons inp later =>
      have go_on {passed' l'} (h' : fetchFrom s fuel passed' l' = .bad e)
          (suffix : ∀ p, streamAt p l' <:+ streamAt p (inp :: later)) :
          ∃ (p : Port) (bs : List Byte), bs <:+: streamAt p (inp :: later) ∧ decode s.cfg p bs = .invalid e := by
        obtain ⟨p, bs, within, invalid⟩ := ih h'
        exact ⟨p, bs, within.trans (suffix p).isInfix, invalid⟩
      rw [fetchFrom] at h
      cases hd : decode s.cfg inp.port inp.bytes with
      | instr i rest =>
        cases hs : hasStep s i with
        | true => simp [hd, hs] at h
        | false =>
          simp only [hd, hs, Bool.false_eq_true, if_false] at h
          exact go_on h fun p => streamAt_suffix_held hd hs p later
      | incomplete =>
        cases hj : joinNext inp later with
        | some joined =>
          simp only [hd, hj] at h
          exact go_on h fun p => streamAt_joinNext hj p ▸ List.suffix_rfl
        | none =>
          simp only [hd, hj] at h
          exact go_on h fun p => streamAt_suffix_cons p inp later
      | invalid e' =>
        obtain rfl : e' = e := by simpa [hd] using h
        exact ⟨inp.port, inp.bytes, by simpa using List.infix_append [] inp.bytes (streamAt inp.port later), hd⟩

/-- The look rejects an input in front that no port can carry. -/
theorem fetch_bad {s : State} {inp : Input} {later : List Input} {e : DecodeError} (ho : s.offered = inp :: later)
    (hd : decode s.cfg inp.port inp.bytes = .invalid e) : fetch s = .bad e := by
  rw [fetch, ho, fetchFuel_cons, Nat.add_right_comm, fetchFrom]
  simp only [hd]

theorem step_of_bad {s : State} {e : DecodeError} (hc : s.cfg.valid = true) (h : fetch s = .bad e) :
    step s = .refused (.undecodable e) := by
  simp [step, stepOf, hc, h]

theorem step_of_invalid_cfg {s : State} (hc : s.cfg.valid = false) : step s = .fault .cfgInvalid := by
  simp [step, stepOf, hc]

/-! ### RESET -/

/-- The reset table is the power-on state, but for the traces and what is the host's (log 19). -/
theorem resetS_eq_powerOn (s : State) :
    resetS s = { State.powerOn s.cfg with out := s.out, consumed := s.consumed, offered := s.offered } := rfl

end Sys2Proof.Machine

namespace Sys2Proof.Claims

open Sys2Proof.Machine

/-- Settles O56: every instruction completes, so a step with a valid Cfg stops only where the look rejects what is offered. -/
theorem stepStopsOnlyOutsideTheRules : Obligations.StepStopsOnlyOutsideTheRules := by
  refine ⟨fun s => step_of_invalid_cfg, fun s inp later e hc ho hd => step_of_bad hc (fetch_bad ho hd), fun s hc => ?_⟩
  cases look : fetch s with
  | nothing => exact .inl ⟨s, step_of_nothing hc look⟩
  | run i offered =>
    obtain ⟨t, completes, -⟩ := exec_completes i (s.setOffered offered)
    exact .inl ⟨t, (step_of_run hc look).trans completes⟩
  | bad e =>
    obtain ⟨p, bs, together, invalid⟩ := fetchFrom_bad look
    exact .inr ⟨p, bs, e, together, invalid, step_of_bad hc look⟩

/-- Settles O44: RESET's assignments are the reset table and write nothing else. -/
theorem resetAppliesTheTable : Obligations.ResetAppliesTheTable :=
  fun s => ⟨rfl, congrArg Host.Outcome.next (resetS_eq_powerOn s), rfl⟩

end Sys2Proof.Claims
end
